-- ==== Sys2Proof/Word.lean ====
section
/-! DEFINITION. The machine word (00_scope.md R3, R4, R5).

Every register, every address, every memory word and every instruction of the unit is one 16-bit Word.
Bit 0 is the least significant bit; `+` on a `Word` is addition modulo 2^16. -/

namespace Sys2Proof

/-- A Word: "a 16-bit unsigned integer; the universal unit of memory, register, and instruction encoding" (R3). -/
abbrev Word := BitVec 16

/-- One byte of a program image file (R170). The unit itself never moves a byte. -/
abbrev Byte := BitVec 8

end Sys2Proof
end

