-- ==== Sys2Proof/Syntax.lean ====
section
/-! DEFINITION. The instructions as syntax: one constructor per row of spec/opcode_table.json
(30_encoding.md R62, R63, R74, R75).

Register selectors are names, not bits; immediates keep their field width. A field the decoder ignores (R67) is
not held, except in RTI and RES, whose diagnostic reports the whole fetched Word (60_exceptions.md R141). -/

namespace Sys2Proof

/-- The eight general registers (10_state.md R14). -/
inductive Reg where
  | r0 | r1 | r2 | r3 | r4 | r5 | r6 | r7
deriving DecidableEq, Repr

/-- One constructor per row of the opcode table. TRAP's six named vectors and JMP R7 are rows of their own
(R74), so `trap` and `jmp` stand for the remaining words (see `Instr.wellFormed`). -/
inductive Instr where
  /-- BR[n][z][p] PCoffset9 (R90). -/
  | br (n z p : Bool) (off : BitVec 9)
  /-- ADD DR, SR1, SR2 (R80). -/
  | add (dr sr1 sr2 : Reg)
  /-- ADD DR, SR1, #imm5 (R81). -/
  | addImm (dr sr1 : Reg) (imm : BitVec 5)
  /-- LD DR, PCoffset9 (R101). -/
  | ld (dr : Reg) (off : BitVec 9)
  /-- ST SR, PCoffset9 (R105). -/
  | st (sr : Reg) (off : BitVec 9)
  /-- JSR PCoffset11 (R93). -/
  | jsr (off : BitVec 11)
  /-- JSRR BaseR (R94). -/
  | jsrr (base : Reg)
  /-- AND DR, SR1, SR2 (R82). -/
  | and (dr sr1 sr2 : Reg)
  /-- AND DR, SR1, #imm5 (R83). -/
  | andImm (dr sr1 : Reg) (imm : BitVec 5)
  /-- LDR DR, BaseR, offset6 (R103). -/
  | ldr (dr base : Reg) (off : BitVec 6)
  /-- STR SR, BaseR, offset6 (R107). -/
  | str (sr base : Reg) (off : BitVec 6)
  /-- RTI, an unused opcode (R135); `bits` is instr[11:0], which only the diagnostic reports. -/
  | rti (bits : BitVec 12)
  /-- NOT DR, SR (R84). -/
  | not (dr sr : Reg)
  /-- LDI DR, PCoffset9 (R102). -/
  | ldi (dr : Reg) (off : BitVec 9)
  /-- STI SR, PCoffset9 (R106). -/
  | sti (sr : Reg) (off : BitVec 9)
  /-- JMP BaseR (R91). -/
  | jmp (base : Reg)
  /-- RES, the reserved opcode (R136); `bits` is instr[11:0], which only the diagnostic reports. -/
  | res (bits : BitVec 12)
  /-- LEA DR, PCoffset9 (R104). -/
  | lea (dr : Reg) (off : BitVec 9)
  /-- TRAP trapvect8 (R115). -/
  | trap (vect : BitVec 8)
  /-- GETC = TRAP x20 (R117). -/
  | getc
  /-- OUT = TRAP x21 (R118). -/
  | out
  /-- PUTS = TRAP x22 (R119). -/
  | puts
  /-- IN = TRAP x23 (R120). -/
  | in_
  /-- PUTSP = TRAP x24 (R121). -/
  | putsp
  /-- HALT = TRAP x25 (R122). -/
  | halt
  /-- RET = JMP R7 (R92). -/
  | ret
deriving DecidableEq, Repr

end Sys2Proof
end

