-- ==== Sys2Proof/WellFormed.lean ====
section
/-! DEFINITION. Which instruction terms stand for an instruction word of their own.

Every field of `Instr` has exactly the width of its encoding field, so no operand can be out of range (R64, R66).
What is left to check: the words of RET and of the six named traps belong to their own rows (R74). -/

namespace Sys2Proof

/-- The six defined trap vectors, 0x20 to 0x25 (R70). -/
def definedVector (v : BitVec 8) : Bool :=
  v == 0x20#8 || v == 0x21#8 || v == 0x22#8 || v == 0x23#8 || v == 0x24#8 || v == 0x25#8

/-- `jmp` does not name R7 (those words are RET, R92) and `trap` does not name a defined vector (R70, R74). -/
def Instr.wellFormed : Instr → Bool
  | .jmp base => base != .r7
  | .trap v => !definedVector v
  | .br _ _ _ _ | .add _ _ _ | .addImm _ _ _ | .ld _ _ | .st _ _ | .jsr _ | .jsrr _ | .and _ _ _
  | .andImm _ _ _ | .ldr _ _ _ | .str _ _ _ | .rti _ | .not _ _ | .ldi _ _ | .sti _ _ | .res _ | .lea _ _
  | .getc | .out | .puts | .in_ | .putsp | .halt | .ret => true

end Sys2Proof
end

