-- ==== Sys2Proof/Decode.lean ====
section
/-! DEFINITION. Decoding and encoding (30_encoding.md R60 to R75, opcode_table.json).

`decode` is R75: total over all 65,536 Words (R68). No word is refused, because the spec gives every word an effect.
The opcode numbers and field positions are the spec's own (D1, D2, D3, marked there as general knowledge; log 2). -/

namespace Sys2Proof

/-- The register a 3-bit selector names, its bits written high to low (R64). -/
def Reg.ofBits (b : BitVec 3) : Reg :=
  match b.getLsbD 2, b.getLsbD 1, b.getLsbD 0 with
  | false, false, false => .r0
  | false, false, true  => .r1
  | false, true,  false => .r2
  | false, true,  true  => .r3
  | true,  false, false => .r4
  | true,  false, true  => .r5
  | true,  true,  false => .r6
  | true,  true,  true  => .r7

/-- The 3-bit selector of a register (R64). -/
def Reg.toBits : Reg → BitVec 3
  | .r0 => 0#3 | .r1 => 1#3 | .r2 => 2#3 | .r3 => 3#3 | .r4 => 4#3 | .r5 => 5#3 | .r6 => 6#3 | .r7 => 7#3

/-- The 16 opcodes, in the order of their numbers (R62). -/
inductive Opcode where
  | br | add | ld | st | jsr | and | ldr | str | rti | not | ldi | sti | jmp | res | lea | trap
deriving DecidableEq, Repr

/-- The opcode a 4-bit field selects, its bits written high to low (R61, R62). -/
def Opcode.ofBits (b : BitVec 4) : Opcode :=
  match b.getLsbD 3, b.getLsbD 2, b.getLsbD 1, b.getLsbD 0 with
  | false, false, false, false => .br
  | false, false, false, true  => .add
  | false, false, true,  false => .ld
  | false, false, true,  true  => .st
  | false, true,  false, false => .jsr
  | false, true,  false, true  => .and
  | false, true,  true,  false => .ldr
  | false, true,  true,  true  => .str
  | true,  false, false, false => .rti
  | true,  false, false, true  => .not
  | true,  false, true,  false => .ldi
  | true,  false, true,  true  => .sti
  | true,  true,  false, false => .jmp
  | true,  true,  false, true  => .res
  | true,  true,  true,  false => .lea
  | true,  true,  true,  true  => .trap

/-- instr[15:12], the opcode field (R61). -/
def opcodeField (w : Word) : BitVec 4 := w.extractLsb' 12 4
/-- instr[11:9]: DR, or SR of a store (R63). -/
def reg11_9 (w : Word) : Reg := Reg.ofBits (w.extractLsb' 9 3)
/-- instr[8:6]: SR1, SR of NOT, or BaseR (R63). -/
def reg8_6 (w : Word) : Reg := Reg.ofBits (w.extractLsb' 6 3)
/-- instr[2:0]: SR2 (R63). -/
def reg2_0 (w : Word) : Reg := Reg.ofBits (w.extractLsb' 0 3)
/-- instr[5], the ADD and AND mode bit (R65). -/
def immMode (w : Word) : Bool := w.getLsbD 5
/-- instr[11], the JSR mode bit (R65). -/
def jsrMode (w : Word) : Bool := w.getLsbD 11
/-- imm5 = instr[4:0] (R66). -/
def imm5 (w : Word) : BitVec 5 := w.extractLsb' 0 5
/-- offset6 = instr[5:0] (R66). -/
def offset6 (w : Word) : BitVec 6 := w.extractLsb' 0 6
/-- PCoffset9 = instr[8:0] (R66). -/
def pcOffset9 (w : Word) : BitVec 9 := w.extractLsb' 0 9
/-- PCoffset11 = instr[10:0] (R66). -/
def pcOffset11 (w : Word) : BitVec 11 := w.extractLsb' 0 11
/-- trapvect8 = instr[7:0] (R66). -/
def trapVect8 (w : Word) : BitVec 8 := w.extractLsb' 0 8
/-- instr[11:0], the ignored bits of RTI and RES (R63). -/
def low12 (w : Word) : BitVec 12 := w.extractLsb' 0 12

/-- The row a trap vector belongs to: the six named rows, else TRAP (R70, R74). -/
def decodeVector (v : BitVec 8) : Instr :=
  if v = 0x20#8 then .getc
  else if v = 0x21#8 then .out
  else if v = 0x22#8 then .puts
  else if v = 0x23#8 then .in_
  else if v = 0x24#8 then .putsp
  else if v = 0x25#8 then .halt
  else .trap v

/-- The row a jump's base register belongs to: RET for R7, else JMP (R92). -/
def decodeJump (base : Reg) : Instr := if base = .r7 then .ret else .jmp base

/-- R75, the decode procedure: the instruction a fetched Word is. -/
def decode (w : Word) : Instr :=
  match Opcode.ofBits (opcodeField w) with
  | .br   => .br (w.getLsbD 11) (w.getLsbD 10) (w.getLsbD 9) (pcOffset9 w)
  | .add  => if immMode w then .addImm (reg11_9 w) (reg8_6 w) (imm5 w) else .add (reg11_9 w) (reg8_6 w) (reg2_0 w)
  | .ld   => .ld (reg11_9 w) (pcOffset9 w)
  | .st   => .st (reg11_9 w) (pcOffset9 w)
  | .jsr  => if jsrMode w then .jsr (pcOffset11 w) else .jsrr (reg8_6 w)
  | .and  => if immMode w then .andImm (reg11_9 w) (reg8_6 w) (imm5 w) else .and (reg11_9 w) (reg8_6 w) (reg2_0 w)
  | .ldr  => .ldr (reg11_9 w) (reg8_6 w) (offset6 w)
  | .str  => .str (reg11_9 w) (reg8_6 w) (offset6 w)
  | .rti  => .rti (low12 w)
  | .not  => .not (reg11_9 w) (reg8_6 w)
  | .ldi  => .ldi (reg11_9 w) (pcOffset9 w)
  | .sti  => .sti (reg11_9 w) (pcOffset9 w)
  | .jmp  => decodeJump (reg8_6 w)
  | .res  => .res (low12 w)
  | .lea  => .lea (reg11_9 w) (pcOffset9 w)
  | .trap => decodeVector (trapVect8 w)

/-- The instruction of a table word of `nbits` bits. Every row is one 16-bit Word (R60), so a longer word is no
instruction of this hardware; the bits a shorter one does not give are 0. -/
def decodeTableWord (nbits w : Nat) : Option Instr :=
  if nbits ≤ 16 then some (decode (BitVec.ofNat 16 (w % 2 ^ nbits))) else none

/-- One mask bit of BR as a 1-bit field (R63). -/
def flagBit (b : Bool) : BitVec 1 := BitVec.ofBool b

/-- The word of an instruction, from the formats of R63, ignored bits at the values an assembler
conventionally puts there (R63, R67). -/
def encode : Instr → Word
  | .br n z p off       => 0x0#4 ++ flagBit n ++ flagBit z ++ flagBit p ++ off
  | .add dr sr1 sr2     => 0x1#4 ++ dr.toBits ++ sr1.toBits ++ 0b0#1 ++ 0b00#2 ++ sr2.toBits
  | .addImm dr sr1 imm  => 0x1#4 ++ dr.toBits ++ sr1.toBits ++ 0b1#1 ++ imm
  | .ld dr off          => 0x2#4 ++ dr.toBits ++ off
  | .st sr off          => 0x3#4 ++ sr.toBits ++ off
  | .jsr off            => 0x4#4 ++ 0b1#1 ++ off
  | .jsrr base          => 0x4#4 ++ 0b0#1 ++ 0b00#2 ++ base.toBits ++ 0b000000#6
  | .and dr sr1 sr2     => 0x5#4 ++ dr.toBits ++ sr1.toBits ++ 0b0#1 ++ 0b00#2 ++ sr2.toBits
  | .andImm dr sr1 imm  => 0x5#4 ++ dr.toBits ++ sr1.toBits ++ 0b1#1 ++ imm
  | .ldr dr base off    => 0x6#4 ++ dr.toBits ++ base.toBits ++ off
  | .str sr base off    => 0x7#4 ++ sr.toBits ++ base.toBits ++ off
  | .rti bits           => 0x8#4 ++ bits
  | .not dr sr          => 0x9#4 ++ dr.toBits ++ sr.toBits ++ 0b111111#6
  | .ldi dr off         => 0xA#4 ++ dr.toBits ++ off
  | .sti sr off         => 0xB#4 ++ sr.toBits ++ off
  | .jmp base           => 0xC#4 ++ 0b000#3 ++ base.toBits ++ 0b000000#6
  | .res bits           => 0xD#4 ++ bits
  | .lea dr off         => 0xE#4 ++ dr.toBits ++ off
  | .trap vect          => 0xF#4 ++ 0x0#4 ++ vect
  | .getc               => 0xF#4 ++ 0x0#4 ++ 0x20#8
  | .out                => 0xF#4 ++ 0x0#4 ++ 0x21#8
  | .puts               => 0xF#4 ++ 0x0#4 ++ 0x22#8
  | .in_                => 0xF#4 ++ 0x0#4 ++ 0x23#8
  | .putsp              => 0xF#4 ++ 0x0#4 ++ 0x24#8
  | .halt               => 0xF#4 ++ 0x0#4 ++ 0x25#8
  | .ret                => 0xC#4 ++ 0b000#3 ++ 0b111#3 ++ 0b000000#6

/-- The bits of an instruction's word that the decoder looks at: all but the bits R63 marks "ign" (R67).
RTI's and RES's operand bits change no effect, but the diagnostic reports them (R141), so they count here. -/
def significantBits : Instr → Word
  | .add _ _ _ | .and _ _ _ => 0xFFE7#16
  | .not _ _ => 0xFFC0#16
  | .jmp _ | .ret => 0xF1C0#16
  | .jsrr _ => 0xF9C0#16
  | .trap _ | .getc | .out | .puts | .in_ | .putsp | .halt => 0xF0FF#16
  | .br _ _ _ _ | .addImm _ _ _ | .ld _ _ | .st _ _ | .jsr _ | .andImm _ _ _ | .ldr _ _ _ | .str _ _ _
  | .rti _ | .ldi _ _ | .sti _ _ | .res _ | .lea _ _ => 0xFFFF#16

end Sys2Proof
end

