-- ==== Sys2Proof/Config.lean ====
section
/-! DEFINITION. What the spec fixes as a number, and what it leaves open as a parameter
(00_scope.md section 4; 92_eei_decisions.md D5, D11). -/

namespace Sys2Proof.Config

/-- MEM_WORDS: the size of the one address space, in Words (R3, R36). -/
def memWords : Nat := 65536

/-- KBSR, the keyboard status register (R27). -/
def kbsr : Word := 0xFE00#16

/-- KBDR, the keyboard data register (R28). -/
def kbdr : Word := 0xFE02#16

/-- What a read of KBSR leaves there when it finds a key: exactly bit 15 (R27, R40, D7). -/
def kbsrReady : Word := 0x8000#16

/-- What a memory word that nothing has written reads as: memory is zero-initialized (R32). -/
def unwritten : Word := 0x0000#16

/-- START_PC, the caller's start address, at its conventional value (R32, D5).
`State.reset` uses it; `State.start` and `boot` take any other.
DESIGN CHOICE (log 3), unsafe: the spec leaves START_PC to the caller. -/
def startPc : Word := 0x3000#16

/-- IN_PROMPT: the codes the IN trap writes before it reads its key (R120, D11).
The spec leaves the text open, so this is a FREE VALUE with no body: a claim holds whatever the prompt is.
DESIGN CHOICE (log 4), safe. -/
opaque inPrompt : List Word

/-- The default the spec names for IN_PROMPT, the 19 codes of "Enter a character: " (R120, D11).
Tests use it; no meaning depends on it. -/
def defaultInPrompt : List Word :=
  [0x45#16, 0x6E#16, 0x74#16, 0x65#16, 0x72#16, 0x20#16, 0x61#16, 0x20#16, 0x63#16, 0x68#16,
   0x61#16, 0x72#16, 0x61#16, 0x63#16, 0x74#16, 0x65#16, 0x72#16, 0x3A#16, 0x20#16]

end Sys2Proof.Config
end

