-- ==== Sys2Proof/Machine/State.lean ====
section
/-! DEFINITION. The state of the machine, its outcomes and its reset (10_state.md, 70_reset_and_hazards.md section 1).

R13's state list is closed: memory, R0 to R7, PC, COND, RUN. KBSR and KBDR are words of memory (R27, R28).
The other fields (`hold`, `cut`, `keys`, `heldKey`, `script`, `trace`) are the MODEL's own: they hold a trap routine that is
not finished, and the environment that the unit meets at its ports (R9, R31, R163, R167, R172). -/

namespace Sys2Proof.Machine

/-- The eight general registers, one Word each; none is hardwired (R14). -/
structure RegFile where
  r0 : Word
  r1 : Word
  r2 : Word
  r3 : Word
  r4 : Word
  r5 : Word
  r6 : Word
  r7 : Word
deriving DecidableEq, Repr

/-- COND, the condition-flag register: one of three flags, or none before the first flag update (R21). -/
inductive Cond where
  | none | p | z | n
deriving DecidableEq, Repr

/-- RUN, the run state (R26). -/
inductive Run where
  | running | halted
deriving DecidableEq, Repr

/-- The two string routines (R119, R121). -/
inductive StringForm where
  | puts | putsp
deriving DecidableEq, Repr

/-- What is left of a trap routine that is not finished: it waits for a key (R125), or the environment has its turn in
the middle of it (R163, D18), or it never ends (R126). -/
inductive TrapHold where
  /-- GETC waits in ReadKey (R117). -/
  | getc
  /-- IN has these codes of its prompt still to write; with none left it waits in ReadKey (R120). -/
  | in_ (prompt : List Word)
  /-- IN has read this key and has still to echo it (R120). -/
  | echo (key : Word)
  /-- PUTS or PUTSP has these codes of the last Word still to write, then goes on reading at `p` (R119, R121). -/
  | string (form : StringForm) (codes : List Word) (p : Word)
deriving DecidableEq, Repr

/-- What passes at the unit's output and console ports (R167), in program order (R57, R137). -/
inductive Event where
  /-- The MemoryBus polled the console and got this answer (R40). -/
  | pollKey (answer : Option Word)
  /-- GETC or IN took this key (R117, R120). -/
  | readKey (key : Word)
  /-- A trap routine wrote this character code (R118 to R121). -/
  | writeChar (code : Word)
  /-- The invalid-instruction diagnostic: the address and the Word (R141). -/
  | invalidOpcode (address word : Word)
deriving DecidableEq, Repr

/-- What the environment may do between two steps (R172, R163). -/
inductive EnvAction where
  /-- A key becomes pending. -/
  | press (key : Word)
  /-- From now on the console always has this key: it is pending again whenever no other is. -/
  | holdDown (key : Word)
  /-- The end of `holdDown`. -/
  | release
  /-- The environment's next turn comes in the middle of the coming step: after `n` operations (characters written, string
  Words read, keys read) of the prompt or string that the step is writing. Any other step is not divided (R163, D18). -/
  | cut (n : Nat)
  /-- The environment ends the run (R163). -/
  | abort
deriving DecidableEq, Repr

/-- Memory as a sparse list of (address, Word) cells, addresses strictly rising, no cell holding
`Config.unwritten` (`Memory.wf`). A cell is one Word because the addressable unit is one Word and no access
is narrower (R36, R43, R45; log 6). -/
abbrev Memory := List (Nat × Word)

structure State where
  /-- R0 to R7 (R14). -/
  regs    : RegFile
  /-- The program counter: between steps, the address of the next fetch (R17). -/
  pc      : Word
  /-- The condition-flag register (R21). -/
  cond    : Cond
  /-- The run state (R26). -/
  run     : Run
  /-- The one address space of 65,536 Words (R30, R36); KBSR and KBDR are two of them (R27, R28). -/
  mem     : Memory
  /-- MODEL: what is left of an unfinished trap routine, if there is one (R125, R126, R163; log 9). -/
  hold    : Option TrapHold
  /-- MODEL: after how many operations of a prompt or string the environment has its next turn, if it cuts in at all
  (R163, D18; log 8). -/
  cut     : Option Nat
  /-- MODEL: the console's pending keys, head first (R31, D9; log 7). -/
  keys    : List Word
  /-- MODEL: the key the console always has when `keys` is empty, if it has one (R126, R172; log 8). -/
  heldKey : Option Word
  /-- MODEL: what the environment does before each coming step, the next step's turn first (R172; log 8). -/
  script  : List (List EnvAction)
  /-- MODEL: everything that passed at the ports, oldest first (R57, R167; log 10). -/
  trace   : List Event
deriving DecidableEq, Repr

/-- Why a step stops without a next state. -/
inductive Fault where
  /-- ABORTED, raised by `step` when the environment's turn holds `abort`: the run is over, not HALTED, and no state
  is left to observe (R163, D15, U10). What had passed at the ports stands in the state before the step.
  Safe: the spec gives this outcome and leaves the state unspecified. -/
  | aborted
deriving DecidableEq, Repr

/-- Why the model gives no meaning. -/
inductive Refusal where
  /-- Raised by an arm of `exec` that has no meaning yet; no arm is left so. Safe. -/
  | notModelled (mnemonic : String)
  /-- Raised by the loader (`loadImage`), never by `step` or `exec`: the program image is outside the precondition of
  R171 (it runs past 0xFFFF, or covers KBSR or KBDR with a non-zero word). Safe: nothing is claimed of such a run. -/
  | imageRefused
deriving DecidableEq, Repr

/-- The outcome of a step, of an instruction and of the loader. -/
abbrev Result := Host.Outcome State Fault Refusal

/-- Step 1 of the start sequence (R165, R166): everything zero, COND none, RUN running. The environment has done nothing. -/
def State.powerOn : State where
  regs    := ⟨0#16, 0#16, 0#16, 0#16, 0#16, 0#16, 0#16, 0#16⟩
  pc      := 0#16
  cond    := .none
  run     := .running
  mem     := []
  hold    := none
  cut     := none
  keys    := []
  heldKey := none
  script  := []
  trace   := []

/-- Step 3 of the start sequence (R166): PC takes the caller's start address. -/
def State.start (startPc : Word) (s : State) : State := { s with pc := startPc }

/-- The machine right after reset, no image loaded, started at the conventional address (R32, R165, R166). -/
def State.reset : State := State.powerOn.start Config.startPc

end Sys2Proof.Machine
end

