-- ==== Sys2Proof/Machine/Ops.lean ====
section
/-! DEFINITION. The named operations: registers, memory, console, MemoryBus, trap entry, diagnostic.

There is one way to read or write each piece of state, and every instruction goes through it. -/

namespace Sys2Proof.Machine

/-! ### General registers (R14) -/

/-- The value a register name holds in a register file. -/
def RegFile.get (f : RegFile) : Reg → Word
  | .r0 => f.r0 | .r1 => f.r1 | .r2 => f.r2 | .r3 => f.r3
  | .r4 => f.r4 | .r5 => f.r5 | .r6 => f.r6 | .r7 => f.r7

/-- The register file with one register replaced, all 16 bits. -/
def RegFile.set (f : RegFile) (r : Reg) (v : Word) : RegFile :=
  match r with
  | .r0 => { f with r0 := v } | .r1 => { f with r1 := v } | .r2 => { f with r2 := v } | .r3 => { f with r3 := v }
  | .r4 => { f with r4 := v } | .r5 => { f with r5 := v } | .r6 => { f with r6 := v } | .r7 => { f with r7 := v }

/-- `R[r]` (R14). -/
def State.reg (s : State) (r : Reg) : Word := s.regs.get r

/-- `R[r] <- v` (R14). -/
def State.setReg (s : State) (r : Reg) (v : Word) : State := { s with regs := s.regs.set r v }

/-! ### Program counter, flags, run state -/

/-- `PC <- v`: any Word, no check (R17, R20). -/
def State.setPc (s : State) (v : Word) : State := { s with pc := v }

/-- `COND <- c` (R21). -/
def State.setCond (s : State) (c : Cond) : State := { s with cond := c }

/-- `RUN <- HALTED` (R26, R122). -/
def State.setHalted (s : State) : State := { s with run := .halted }

/-- Leave a trap routine unfinished, or finish it (R125). -/
def State.setHold (s : State) (h : Option TrapHold) : State := { s with hold := h }

/-! ### The stored memory array (R36) -/

/-- `M[a]` of the raw array: an unlisted address reads as `Config.unwritten`. -/
def Memory.lookup : Memory → Nat → Word
  | [], _ => Config.unwritten
  | (k, v) :: m, a => if k = a then v else Memory.lookup m a

/-- `M[a] <- v` of the raw array, in canonical form: a cell of the unwritten value is not listed. -/
def Memory.store : Memory → Nat → Word → Memory
  | [], a, v => if v = Config.unwritten then [] else [(a, v)]
  | (k, w) :: m, a, v =>
    if a < k then (if v = Config.unwritten then (k, w) :: m else (a, v) :: (k, w) :: m)
    else if a = k then (if v = Config.unwritten then m else (a, v) :: m)
    else (k, w) :: Memory.store m a v

/-- The cells lie at strictly rising addresses from `lo` up, inside the address space, none of the unwritten value. -/
def Memory.wfFrom : Nat → Memory → Bool
  | _, [] => true
  | lo, (k, v) :: m =>
    decide (lo ≤ k) && decide (k < Config.memWords) && decide (v ≠ Config.unwritten) && Memory.wfFrom (k + 1) m

/-- The canonical form of memory: equal memories are equal lists, and no address is outside the space (R36). -/
def Memory.wf (m : Memory) : Bool := Memory.wfFrom 0 m

/-- `M[a]`: the stored content of memory word `a`, with no side effect (R36). -/
def Memory.read (m : Memory) (a : Word) : Word := m.lookup a.toNat

/-- `M[a] <- v` (R36). -/
def Memory.write (m : Memory) (a : Word) (v : Word) : Memory := m.store a.toNat v

/-- `MemWrite(a, v)`: a plain store at every address, KBSR and KBDR included (R39, D8). It never fails (R144). -/
def State.memWrite (s : State) (a v : Word) : State := { s with mem := s.mem.write a v }

/-! ### The console (R9) -/

/-- Record what passed at a port (R57, R167). -/
def State.emit (s : State) (e : Event) : State := { s with trace := s.trace ++ [e] }

/-- Replace the pending keys. -/
def State.setKeys (s : State) (ks : List Word) : State := { s with keys := ks }

/-- Hold a key down, or none (log 8). -/
def State.setHeldKey (s : State) (k : Option Word) : State := { s with heldKey := k }

/-- Say where in the coming prompt or string the environment cuts in, or nowhere (log 8). -/
def State.setCut (s : State) (n : Option Nat) : State := { s with cut := n }

/-- How many operations a prompt or string may do in this step: up to the environment's cut, else `full` (log 8). -/
def State.allowed (s : State) (full : Nat) : Nat :=
  match s.cut with
  | some n => n
  | none => full

/-- Replace what the environment has still to do (log 8). -/
def State.setScript (s : State) (ts : List (List EnvAction)) : State := { s with script := ts }

/-- The key the console would deliver now, and the pending keys without it: the head of the FIFO, or the key held
down when the FIFO is empty (D9; log 7, 8). -/
def takeKey (s : State) : Option (Word × State) :=
  match s.keys with
  | k :: ks => some (k, s.setKeys ks)
  | [] =>
    match s.heldKey with
    | some k => some (k, s)
    | none => none

/-- `PollKey()`: a pending key, taken from the console, or none; it never waits (R9, R40). -/
def pollKey (s : State) : Option Word × State :=
  match takeKey s with
  | some (k, s') => (some k, s'.emit (.pollKey (some k)))
  | none => (none, s.emit (.pollKey none))

/-- `WriteChar(w)`: the console accepts the whole Word at once (R9, R172, D10). -/
def writeChar (w : Word) (s : State) : State := s.emit (.writeChar w)

/-- WriteChar once per code, in order. -/
def writeChars : List Word → State → State
  | [], s => s
  | w :: ws, s => writeChars ws (writeChar w s)

/-! ### The MemoryBus (R38, R40) -/

/-- The poll inside a read of KBSR: a key found sets KBSR to 0x8000 and KBDR to its code; none found clears KBSR
and leaves KBDR (R40, D7). -/
def pollStatus (s : State) : State :=
  match pollKey s with
  | (some c, s') => (s'.memWrite Config.kbsr Config.kbsrReady).memWrite Config.kbdr c
  | (none, s') => s'.memWrite Config.kbsr 0x0000#16

/-- What a MemoryBus read of `a` does before the array is read (R38). -/
def beforeRead (a : Word) (s : State) : State := if a = Config.kbsr then pollStatus s else s

/-- `MemRead(a)`: one Word, with the poll if `a` is KBSR (R38). It never fails (R144). -/
def memRead (a : Word) (s : State) : Word × State :=
  let s' := beforeRead a s
  (s'.mem.read a, s')

/-! ### Traps and the invalid-instruction condition

The unit has no exception that transfers control (R140): this is all of entry, and there is no return (R148, R150). -/

/-- Trap entry: the return address (PC is already a + 1) goes to R7, and nothing else is saved or changed (R115, R148). -/
def trapEntry (s : State) : State := s.setReg .r7 s.pc

/-- The address the current instruction was fetched from: PC - 1 modulo 2^16, since the fetch incremented PC (R18, R135). -/
def State.instrAddress (s : State) : Word := s.pc - 1#16

/-- `signal InvalidOpcode(a, instr)`: one diagnostic event, no other change (R141, D16). -/
def signalInvalidOpcode (word : Word) (s : State) : State := s.emit (.invalidOpcode s.instrAddress word)

end Sys2Proof.Machine
end

