-- ==== Sys2Proof/Machine/Flags.lean ====
section
/-! DEFINITION. The condition flags (10_state.md R21 to R25; 41_control.md R90). -/

namespace Sys2Proof.Machine

/-- The flag of a value: N if bit 15 is set, Z if it is 0, else P (R22). -/
def flagOf (v : Word) : Cond :=
  if v.getLsbD 15 then .n else if v = 0x0000#16 then .z else .p

/-- `setcc(r)`: COND from the value register `r` holds now (R22). -/
def setcc (r : Reg) (s : State) : State := s.setCond (flagOf (s.reg r))

/-- Write a destination register, then the flags from it: what every flag-writing instruction does (R23). -/
def setRegCc (r : Reg) (v : Word) (s : State) : State := setcc r (s.setReg r v)

/-- COND as the one-hot bits the spec gives it: P = 001, Z = 010, N = 100, none = 000 (R21, D3). -/
def Cond.toBits : Cond → BitVec 3
  | .none => 0b000#3
  | .p => 0b001#3
  | .z => 0b010#3
  | .n => 0b100#3

/-- Whether BR's mask picks the flag that is set; with COND = none nothing does (R90). -/
def brTaken (n z p : Bool) : Cond → Bool
  | .n => n
  | .z => z
  | .p => p
  | .none => false

end Sys2Proof.Machine
end

