-- ==== Sys2Proof/Machine/Operands.lean ====
section
/-! DEFINITION. Operand forms: sign extension, zero extension and the three addressing modes
(00_scope.md R6, R7; 30_encoding.md R66; 42_load_store.md R100).

In every function PC is already incremented: it is the instruction's address plus 1 (R18). -/

namespace Sys2Proof.Machine

/-- `sext_n`: the Word with the same signed value as the n-bit field (R6). The field is already cut to its n bits, so
the spec's `v[n-1:0]` is the field itself. -/
def sext {n : Nat} (field : BitVec n) : Word := field.signExtend 16

/-- `zext_n`: the field in the low bits, zeros above (R7). -/
def zext {n : Nat} (field : BitVec n) : Word := field.setWidth 16

/-- PC-relative: PC + sext_9(PCoffset9), modulo 2^16 (R100, R48). -/
def pcRelative (s : State) (off : BitVec 9) : Word := s.pc + sext off

/-- The JSR target: PC + sext_11(PCoffset11), modulo 2^16 (R93). -/
def pcRelativeLong (s : State) (off : BitVec 11) : Word := s.pc + sext off

/-- Base + offset: R[BaseR] + sext_6(offset6), modulo 2^16; the base register is not changed (R100). -/
def baseOffset (s : State) (base : Reg) (off : BitVec 6) : Word := s.reg base + sext off

/-- Indirect: the address is the Word that MemRead finds at the PC-relative pointer address (R100). -/
def indirect (s : State) (off : BitVec 9) : Word × State := memRead (pcRelative s off) s

/-- The low byte of a Word as a character code, zext_8(w[7:0]) (R121). -/
def lowByte (w : Word) : Word := zext (w.extractLsb' 0 8)

/-- The high byte of a Word as a character code, zext_8(w[15:8]) (R121). -/
def highByte (w : Word) : Word := zext (w.extractLsb' 8 8)

end Sys2Proof.Machine
end

