-- ==== Sys2Proof/Machine/Control.lean ====
section
/-! DEFINITION. Control transfer: BR, JMP, RET, JSR, JSRR (41_control.md R90 to R96). PC is already a + 1 (R18). -/

namespace Sys2Proof.Machine

/-- The link: R7 takes PC, the return address (R16, R93, R94). -/
def link (s : State) : State := s.setReg .r7 s.pc

/-- PC takes a register's whole value, unchecked (R20, R91). -/
def jumpTo (base : Reg) (s : State) : State := s.setPc (s.reg base)

/-- BR (R90): taken when the mask picks the flag that is set. -/
def execBr (n z p : Bool) (off : BitVec 9) (s : State) : Result :=
  .next (if brTaken n z p s.cond then s.setPc (pcRelative s off) else s)

/-- JMP (R91): no link. -/
def execJmp (base : Reg) (s : State) : Result := .next (jumpTo base s)

/-- RET (R92): JMP with BaseR = 7. -/
def execRet (s : State) : Result := .next (jumpTo .r7 s)

/-- JSR (R93): link, then PC-relative. The link does not change PC. -/
def execJsr (off : BitVec 11) (s : State) : Result :=
  .next ((link s).setPc (pcRelativeLong (link s) off))

/-- JSRR (R94): link first, then the register is read, so `JSRR R7` goes to a + 1 (D23). -/
def execJsrr (base : Reg) (s : State) : Result := .next (jumpTo base (link s))

end Sys2Proof.Machine
end

