-- ==== Sys2Proof/Machine/LoadStore.lean ====
section
/-! DEFINITION. Loads, stores and load-address (42_load_store.md R100 to R109).

Every memory read is a MemRead, so a read of KBSR polls (R38, R40); accesses happen in the order of R51. -/

namespace Sys2Proof.Machine

/-- MemRead(ea) into a register, flags from the loaded Word (R101, R103). -/
def loadFrom (dr : Reg) (ea : Word) (s : State) : State :=
  let (v, s') := memRead ea s
  setRegCc dr v s'

/-- LD (R101). -/
def execLd (dr : Reg) (off : BitVec 9) (s : State) : Result :=
  .next (loadFrom dr (pcRelative s off) s)

/-- LDI (R102): the pointer is read first, then the data; flags from the data. -/
def execLdi (dr : Reg) (off : BitVec 9) (s : State) : Result :=
  let (ea, s') := indirect s off
  .next (loadFrom dr ea s')

/-- LDR (R103): the base is read before DR is written. -/
def execLdr (dr base : Reg) (off : BitVec 6) (s : State) : Result :=
  .next (loadFrom dr (baseOffset s base off) s)

/-- LEA (R104): the address itself, no memory access; flags are written. -/
def execLea (dr : Reg) (off : BitVec 9) (s : State) : Result :=
  .next (setRegCc dr (pcRelative s off) s)

/-- ST (R105). -/
def execSt (sr : Reg) (off : BitVec 9) (s : State) : Result :=
  .next (s.memWrite (pcRelative s off) (s.reg sr))

/-- STI (R106): the pointer read may poll; the store never does. -/
def execSti (sr : Reg) (off : BitVec 9) (s : State) : Result :=
  let (ea, s') := indirect s off
  .next (s'.memWrite ea (s'.reg sr))

/-- STR (R107). -/
def execStr (sr base : Reg) (off : BitVec 6) (s : State) : Result :=
  .next (s.memWrite (baseOffset s base off) (s.reg sr))

end Sys2Proof.Machine
end

