-- ==== Sys2Proof/Machine/Operate.lean ====
section
/-! DEFINITION. The operate instructions ADD, AND, NOT (40_operate.md R80 to R86). -/

namespace Sys2Proof.Machine

/-- ADD, register form (R80): the sum modulo 2^16, flags from it; no overflow is detected (R85). -/
def execAdd (dr sr1 sr2 : Reg) (s : State) : Result :=
  .next (setRegCc dr (s.reg sr1 + s.reg sr2) s)

/-- ADD, immediate form (R81): the immediate is sext_5(imm5). -/
def execAddImm (dr sr1 : Reg) (imm : BitVec 5) (s : State) : Result :=
  .next (setRegCc dr (s.reg sr1 + sext imm) s)

/-- AND, register form (R82). -/
def execAnd (dr sr1 sr2 : Reg) (s : State) : Result :=
  .next (setRegCc dr (s.reg sr1 &&& s.reg sr2) s)

/-- AND, immediate form (R83): the immediate is sign-extended first. -/
def execAndImm (dr sr1 : Reg) (imm : BitVec 5) (s : State) : Result :=
  .next (setRegCc dr (s.reg sr1 &&& sext imm) s)

/-- NOT (R84): every bit inverted. -/
def execNot (dr sr : Reg) (s : State) : Result :=
  .next (setRegCc dr (s.reg sr ^^^ 0xFFFF#16) s)

end Sys2Proof.Machine
end

