-- ==== Sys2Proof/Machine/Reserved.lean ====
section
/-! DEFINITION. The reserved opcodes RTI and RES (44_reserved.md R135 to R137): a diagnostic and nothing else. -/

namespace Sys2Proof.Machine

/-- RTI (R135): it returns from nothing (R152). The reported Word is opcode 1000 and the twelve ignored bits. -/
def execRti (bits : BitVec 12) (s : State) : Result := .next (signalInvalidOpcode (0x8#4 ++ bits) s)

/-- RES (R136). The reported Word is opcode 1101 and the twelve ignored bits. -/
def execRes (bits : BitVec 12) (s : State) : Result := .next (signalInvalidOpcode (0xD#4 ++ bits) s)

end Sys2Proof.Machine
end

