-- ==== Sys2Proof/Machine/Trap.lean ====
section
/-! DEFINITION. TRAP, the six console routines and the undefined vectors (43_trap.md R115 to R126).

A routine is performed whole inside the TRAP instruction's step (R116), but for three cases in which the step ends with
the rest of the routine in the state field `hold`: GETC and IN have no key yet (R125); the environment cuts in while a
prompt or a string is being written (R163, D18); a string never ends (R126). `resumeHold` is what a step does then
(log 8, 9, 11). -/

namespace Sys2Proof.Machine

/-! ### Reading a key -/

/-- GETC once its key is there: R0 takes the whole Word, COND is not written (R117, D26). -/
def finishGetc (k : Word) (s : State) : State :=
  ((s.emit (.readKey k)).setReg .r0 k).setHold none

/-- ReadKey inside GETC: the key if the console has one, else wait (R117, R125). -/
def getcRead (s : State) : State :=
  match takeKey s with
  | some (k, s') => finishGetc k s'
  | none => s.setHold (some .getc)

/-- IN once it has read its key: the echo, then R0, then the flags (R120, D12). -/
def finishIn (k : Word) (s : State) : State := (setRegCc .r0 k (writeChar k s)).setHold none

/-- The end of IN, if `n` allows one operation more. -/
def inEcho (n : Nat) (k : Word) (s : State) : State :=
  match n with
  | 0 => s.setHold (some (.echo k))
  | _ + 1 => finishIn k s

/-- ReadKey inside IN: the key if the console has one, else wait (R120, R125). `n` operations are left after it. -/
def inRead (n : Nat) (s : State) : State :=
  match takeKey s with
  | some (k, s') => inEcho n k (s'.emit (.readKey k))
  | none => s.setHold (some (.in_ []))

/-- IN from the point where `prompt` is still to be written, for at most `n` operations: the prompt code by code, the key,
the echo (R120). -/
def inFrom : Nat → List Word → State → State
  | 0, prompt, s => s.setHold (some (.in_ prompt))
  | n + 1, c :: prompt, s => inFrom n prompt (writeChar c s)
  | n + 1, [], s => inRead n s

/-! ### Writing strings -/

/-- The codes a string routine writes for one non-zero Word. PUTS: the Word itself (R119, D10). PUTSP: the low byte
always, then the high byte unless it is zero (R121, D22, C5). -/
def StringForm.codes (form : StringForm) (w : Word) : List Word :=
  match form with
  | .puts => [w]
  | .putsp => if highByte w = 0x0000#16 then [lowByte w] else [lowByte w, highByte w]

/-- The string loop of PUTS and PUTSP (R119, R121), for at most `n` operations: write the codes that are left; then read
the next Word through the MemoryBus, stop if it is zero, else go on with its codes and the next address, modulo 2^16. -/
def writeString (form : StringForm) : Nat → List Word → Word → State → State
  | 0, codes, p, s => s.setHold (some (.string form codes p))
  | n + 1, c :: codes, p, s => writeString form n codes p (writeChar c s)
  | n + 1, [], p, s =>
    let (w, s') := memRead p s
    if w = 0x0000#16 then s'.setHold none
    else writeString form n (form.codes w) (p + 1#16) s'

/-- Enough operations to reach the end of any string that has one. Each pending key can keep KBSR's word non-zero for
one lap of the address space; the lap after the last of them meets the held key's code in KBDR, and every later lap
repeats it. A Word is one read and at most two codes (R126; log 11). -/
def stringOps (codes : List Word) (s : State) : Nat := codes.length + 3 * (Config.memWords * (s.keys.length + 2))

/-- A string routine from a point of its loop: to its end in this step, unless the environment cuts in or there is no
end; then the rest is left in `hold` (R126, R163). -/
def stringFrom (form : StringForm) (codes : List Word) (p : Word) (s : State) : State :=
  writeString form (s.allowed (stringOps codes s)) codes p s

/-! ### The rest of an unfinished routine -/

/-- What a step does while a trap routine is unfinished, and nothing else (R125, R126). -/
def resumeHold (h : TrapHold) (s : State) : State :=
  match h with
  | .getc => getcRead s
  | .in_ prompt => inFrom (s.allowed (prompt.length + 2)) prompt s
  | .echo k => inEcho (s.allowed 1) k s
  | .string form codes p => stringFrom form codes p s

/-! ### The routines, R7 already written -/

/-- GETC (R117). -/
def getcRoutine (s : State) : State := getcRead s

/-- OUT (R118): the whole Word of R0. -/
def outRoutine (s : State) : State := writeChar (s.reg .r0) s

/-- PUTS (R119). -/
def putsRoutine (s : State) : State := stringFrom .puts [] (s.reg .r0) s

/-- IN (R120), with the prompt as a parameter (D11): the prompt is written before the wait (R125). -/
def inRoutineWith (prompt : List Word) (s : State) : State := inFrom (s.allowed (prompt.length + 2)) prompt s

/-- IN with the unit's own prompt. -/
def inRoutine (s : State) : State := inRoutineWith Config.inPrompt s

/-- PUTSP (R121). -/
def putspRoutine (s : State) : State := stringFrom .putsp [] (s.reg .r0) s

/-- HALT (R122): nothing is written to the console (D13). -/
def haltRoutine (s : State) : State := s.setHalted

/-- The dispatch of R115 on the vector; any vector that names no routine does nothing (R123). -/
def trapRoutine (vect : BitVec 8) (s : State) : State :=
  if vect = 0x20#8 then getcRoutine s
  else if vect = 0x21#8 then outRoutine s
  else if vect = 0x22#8 then putsRoutine s
  else if vect = 0x23#8 then inRoutine s
  else if vect = 0x24#8 then putspRoutine s
  else if vect = 0x25#8 then haltRoutine s
  else s

/-! ### The instructions -/

/-- TRAP (R115): R7, then the routine of the vector. -/
def execTrap (vect : BitVec 8) (s : State) : Result := .next (trapRoutine vect (trapEntry s))

/-- GETC, TRAP x20 (R117). -/
def execGetc (s : State) : Result := .next (getcRoutine (trapEntry s))

/-- OUT, TRAP x21 (R118). -/
def execOut (s : State) : Result := .next (outRoutine (trapEntry s))

/-- PUTS, TRAP x22 (R119). -/
def execPuts (s : State) : Result := .next (putsRoutine (trapEntry s))

/-- IN, TRAP x23 (R120). -/
def execIn (s : State) : Result := .next (inRoutine (trapEntry s))

/-- PUTSP, TRAP x24 (R121). -/
def execPutsp (s : State) : Result := .next (putspRoutine (trapEntry s))

/-- HALT, TRAP x25 (R122). -/
def execHalt (s : State) : Result := .next (haltRoutine (trapEntry s))

end Sys2Proof.Machine
end

