-- ==== Sys2Proof/Machine/Cycle.lean ====
section
/-! DEFINITION. The parts of one step: the environment's turn, the fetch, the execution of what was fetched
(10_state.md R18, 70_reset_and_hazards.md R172). `step` puts them together. -/

namespace Sys2Proof.Machine

/-- One action of the environment; none when it ends the run (R163, R172). A key that arrives waits in the console and
changes nothing in the unit (R146). -/
def applyAction (a : EnvAction) (s : State) : Option State :=
  match a with
  | .press k => some (s.setKeys (s.keys ++ [k]))
  | .holdDown k => some (s.setHeldKey (some k))
  | .release => some (s.setHeldKey none)
  | .cut n => some (s.setCut (some n))
  | .abort => none

/-- The actions of one turn, in order; none when one of them ends the run. -/
def applyTurn : List EnvAction → State → Option State
  | [], s => some s
  | a :: as, s =>
    match applyAction a s with
    | some s' => applyTurn as s'
    | none => none

/-- The environment's turn before a step: the head of the script; nothing happens once the script is used up. A cut
holds for one step only (log 8). -/
def environmentTurn (s : State) : Option State :=
  match s.script with
  | [] => some (s.setCut none)
  | t :: ts => applyTurn t ((s.setScript ts).setCut none)

/-- Fetch: MemRead at PC, then PC <- PC + 1 modulo 2^16, before decode and execute (R18, R19). -/
def fetch (s : State) : Word × State :=
  let (w, s') := memRead s.pc s
  (w, s'.setPc (s'.pc + 1#16))

/-- The instruction cycle of R18: fetch, decode, execute. -/
def instructionCycle (s : State) : Result :=
  let (w, s') := fetch s
  exec (decode w) s'

/-- What a running unit does in one step: go on with an unfinished trap routine, or run the next instruction (R18, R125). -/
def runningStep (s : State) : Result :=
  match s.hold with
  | some h => .next (resumeHold h s)
  | none => instructionCycle s

/-- A step of a running unit in its environment: the environment's turn, then the unit's (R163, R172). -/
def environmentStep (s : State) : Result :=
  match environmentTurn s with
  | some s' => runningStep s'
  | none => .fault .aborted

end Sys2Proof.Machine
end

