-- ==== Sys2Proof/Machine/Step.lean ====
section
/-! DEFINITION. One step of the machine, and how a test places an instruction where the next step fetches it. -/

namespace Sys2Proof.Machine

/-- One step. A HALTED unit takes none: nothing is fetched and nothing changes (R26, R122; log 12). -/
def step (s : State) : Host.Outcome State Fault Refusal :=
  match s.run with
  | .halted => .next s
  | .running => environmentStep s

/-- `s` with the instruction of an `nbits`-bit table word stored where the next step fetches (R18). What the fetch
needs besides: the unit runs and no trap is unfinished; the environment does nothing more, so that it neither ends the run
nor cuts the step; and PC is not KBSR, whose read overwrites the word (R40, R54), but START_PC instead. -/
def State.withFetchWord (s : State) (nbits w : Nat) : State :=
  let pc := if s.pc = Config.kbsr then Config.startPc else s.pc
  { s with
    run := .running
    hold := none
    cut := none
    script := []
    pc := pc
    mem := s.mem.write pc (BitVec.ofNat 16 (w % 2 ^ nbits)) }

end Sys2Proof.Machine
end

