-- ==== Sys2Proof/Machine/Boot.lean ====
section
/-! DEFINITION. The start sequence with a program image (70_reset_and_hazards.md R165 to R171).

The loader is outside the unit (R10); it is modelled because R166 gives its effect on memory and R170 its format.
It acts only before the first step. -/

namespace Sys2Proof.Machine

/-- The image's words with their addresses, from the origin up. -/
def imageCells (origin : Nat) : List Word → List (Nat × Word)
  | [] => []
  | w :: ws => (origin, w) :: imageCells (origin + 1) ws

/-- R171, the precondition on an image: it ends at or below 0xFFFF and covers neither KBSR nor KBDR with a non-zero word. -/
def imageOk (origin : Word) (words : List Word) : Bool :=
  decide (origin.toNat + words.length ≤ Config.memWords) &&
  (imageCells origin.toNat words).all fun c =>
    !((c.1 == Config.kbsr.toNat || c.1 == Config.kbdr.toNat) && c.2 != 0x0000#16)

/-- Step 2 of R166: each word through MemWrite, at consecutive addresses. -/
def loadWords : Word → List Word → State → State
  | _, [], s => s
  | a, w :: ws, s => loadWords (a + 1#16) ws (s.memWrite a w)

/-- The loader: an image outside the precondition is refused, not given a meaning (R171, D19, U13). -/
def loadImage (origin : Word) (words : List Word) (s : State) : Result :=
  if imageOk origin words then .next (loadWords origin words s) else .refused .imageRefused

/-- The start sequence of R166 up to the first step: reset, load, start. Every reset is this full one (R165, D28). -/
def boot (startPc origin : Word) (words : List Word) : Result :=
  match loadImage origin words State.powerOn with
  | .next s => .next (s.start startPc)
  | .fault f => .fault f
  | .refused r => .refused r

/-- The Words of an image file's bytes: 2-byte big-endian chunks, an odd trailing byte dropped (R170). -/
def bigEndianWords : List Byte → List Word
  | hi :: lo :: bs => (hi ++ lo) :: bigEndianWords bs
  | _ => []

/-- An image file: its origin, then its words. A file of fewer than 2 bytes has no origin and is no image (R170, N12). -/
def parseImage (bytes : List Byte) : Option (Word × List Word) :=
  match bigEndianWords bytes with
  | origin :: words => some (origin, words)
  | [] => none

end Sys2Proof.Machine
end

