-- ==== Sys2Proof/Safety.lean ====
section
/-! DEFINITION. The terms in which statements about the machine are made: what stays the same, what a bus read does,
which instructions may write what, and the invariant of a step. They say what the spec's tables say, apart from the
definitions of the machine where that is possible. -/

namespace Sys2Proof.Machine

/-! ### Frames -/

/-- Every register but those of `written` holds what it held. -/
def RegsKept (written : List Reg) (s t : State) : Prop := ∀ r, r ∉ written → t.reg r = s.reg r

/-- Every memory word but those at `written` reads as it did. -/
def MemKept (written : List Word) (s t : State) : Prop := ∀ a, a ∉ written → t.mem.read a = s.mem.read a

/-- The console has the keys it had, and nothing passed at a port. -/
def ConsoleKept (s t : State) : Prop := t.keys = s.keys ∧ t.heldKey = s.heldKey ∧ t.trace = s.trace

/-- The run state, an unfinished routine and the environment's script and cut are as they were. -/
def ControlKept (s t : State) : Prop := t.run = s.run ∧ t.hold = s.hold ∧ t.script = s.script ∧ t.cut = s.cut

/-- As `ControlKept`, but for `hold`: no trap routine is left unfinished (log 9). -/
def Finished (s t : State) : Prop := t.run = s.run ∧ t.hold = none ∧ t.script = s.script ∧ t.cut = s.cut

/-! ### Effects -/

/-- `c` is the flag of the value `v`: N for 0x8000 and above, Z for zero, P for the rest, so exactly one (R22). -/
def FlagIs (c : Cond) (v : Word) : Prop :=
  (c = .n ↔ 0x8000 ≤ v.toNat) ∧ (c = .z ↔ v.toNat = 0) ∧ (c = .p ↔ 0 < v.toNat ∧ v.toNat < 0x8000)

/-- Register `dr` takes `v`, COND its flag, and nothing else changes (R23, R109). -/
def WritesDest (dr : Reg) (v : Word) (s t : State) : Prop :=
  t.reg dr = v ∧ FlagIs t.cond v ∧ RegsKept [dr] s t ∧ t.pc = s.pc ∧ MemKept [] s t ∧ ConsoleKept s t ∧ ControlKept s t

/-- PC takes `v` and nothing else changes but the registers of `written`. -/
def WritesPc (v : Word) (written : List Reg) (s t : State) : Prop :=
  t.pc = v ∧ RegsKept written s t ∧ t.cond = s.cond ∧ MemKept [] s t ∧ ConsoleKept s t ∧ ControlKept s t

/-- The memory word at `a` takes `v` and nothing else changes (R109). -/
def WritesWord (a v : Word) (s t : State) : Prop :=
  t.mem.read a = v ∧ MemKept [a] s t ∧ RegsKept [] s t ∧ t.pc = s.pc ∧ t.cond = s.cond ∧ ConsoleKept s t ∧ ControlKept s t

/-! ### The console and the bus -/

/-- The console has no key to give. -/
def NoKey (s : State) : Prop := s.keys = [] ∧ s.heldKey = none

/-- The console gives key `k` next, and `rest` stay pending (D9; log 7, 8). -/
def NextKey (k : Word) (rest : List Word) (s : State) : Prop :=
  s.keys = k :: rest ∨ (s.keys = [] ∧ s.heldKey = some k ∧ rest = [])

/-- What a bus read of `a` that answers `v` changes (R38, R40): nothing, but for the poll of a KBSR read. -/
def BusRead (a : Word) (s : State) (v : Word) (t : State) : Prop :=
  RegsKept [] s t ∧ t.pc = s.pc ∧ t.cond = s.cond ∧ ControlKept s t ∧
  (a ≠ Config.kbsr → v = s.mem.read a ∧ MemKept [] s t ∧ ConsoleKept s t) ∧
  (a = Config.kbsr → ∀ k rest, NextKey k rest s →
    v = 0x8000#16 ∧ t.mem.read Config.kbsr = 0x8000#16 ∧ t.mem.read Config.kbdr = k ∧
    MemKept [Config.kbsr, Config.kbdr] s t ∧ t.keys = rest ∧ t.heldKey = s.heldKey ∧
    t.trace = s.trace ++ [.pollKey (some k)]) ∧
  (a = Config.kbsr → NoKey s →
    v = 0x0000#16 ∧ t.mem.read Config.kbsr = 0x0000#16 ∧ MemKept [Config.kbsr] s t ∧ t.keys = s.keys ∧
    t.heldKey = s.heldKey ∧ t.trace = s.trace ++ [.pollKey none])

/-- A trap routine waits inside ReadKey (R125): GETC, or IN with its prompt written. -/
def WaitsForKey (s : State) : Prop := s.hold = some .getc ∨ s.hold = some (.in_ [])

/-- The unit is as it was and nothing passed at a port: only the environment's part of the state may differ (R125). -/
def UnitKept (s t : State) : Prop :=
  RegsKept [] s t ∧ t.pc = s.pc ∧ t.cond = s.cond ∧ t.run = s.run ∧ MemKept [] s t ∧ t.hold = s.hold ∧ t.trace = s.trace

/-- The wait of `s` has ended in `t` with the key `k`, which is in R0, and `rest` stay pending: GETC has written nothing to
the console and left COND (R117), IN has echoed the key and written COND from it (R120). -/
def WaitEnded (k : Word) (rest : List Word) (s t : State) : Prop :=
  t.hold = none ∧ t.reg .r0 = k ∧ RegsKept [.r0] s t ∧ t.pc = s.pc ∧ t.run = s.run ∧ MemKept [] s t ∧ t.keys = rest ∧
  (s.hold = some .getc → t.cond = s.cond ∧ t.trace = s.trace ++ [.readKey k]) ∧
  (s.hold = some (.in_ []) → FlagIs t.cond k ∧ t.trace = s.trace ++ [.readKey k, .writeChar k])

/-- A turn of the environment that makes no key pending, holds none down and does not end the run. -/
def GivesNoKey (turn : List EnvAction) : Prop := ∀ a, a ∈ turn → a = .release ∨ ∃ n, a = .cut n

/-- The instruction that performs a string routine (R119, R121). -/
def StringForm.instr : StringForm → Instr
  | .puts => .puts
  | .putsp => .putsp

/-- The words `ws`, none zero, then a zero word, lie from `p` up, none of them at KBSR (R119). -/
def StringAt (s : State) : Word → List Word → Prop
  | p, [] => p ≠ Config.kbsr ∧ s.mem.read p = 0x0000#16
  | p, w :: ws => p ≠ Config.kbsr ∧ s.mem.read p = w ∧ w ≠ 0x0000#16 ∧ StringAt s (p + 1#16) ws

/-- One run of the string loop of R119 and R121, with no bound on its length: it ends where a zero word is read. -/
inductive StringRun (codes : Word → List Word) : Word → State → State → Prop where
  | done (p : Word) (s : State) (h : (memRead p s).1 = 0x0000#16) : StringRun codes p s (memRead p s).2
  | more (p : Word) (s t : State) (h : (memRead p s).1 ≠ 0x0000#16)
      (rest : StringRun codes (p + 1#16) (writeChars (codes (memRead p s).1) (memRead p s).2) t) : StringRun codes p s t

/-- A part of such a run that has not ended: from `p` and `s` the loop comes to `q` and `t`, some Words further on. -/
inductive StringPart (codes : Word → List Word) : Word → State → Word → State → Prop where
  | none (p : Word) (s : State) : StringPart codes p s p s
  | word (p : Word) (s : State) (q : Word) (t : State) (h : (memRead p s).1 ≠ 0x0000#16)
      (rest : StringPart codes (p + 1#16) (writeChars (codes (memRead p s).1) (memRead p s).2) q t) : StringPart codes p s q t

/-- The characters among what passed at the ports, in order. -/
def written : List Event → List Word
  | [] => []
  | .writeChar c :: ev => c :: written ev
  | .pollKey _ :: ev | .readKey _ :: ev | .invalidOpcode _ _ :: ev => written ev

/-- One access on the MemoryBus. -/
inductive BusOp where
  | read (a : Word)
  | write (a v : Word)
deriving DecidableEq, Repr

/-- A sequence of accesses, in order. -/
def runBus : List BusOp → State → State
  | [], s => s
  | .read a :: ops, s => runBus ops (memRead a s).2
  | .write a v :: ops, s => runBus ops (s.memWrite a v)

/-- The addresses a sequence of accesses writes by MemWrite. -/
def writtenByBus : List BusOp → List Word
  | [] => []
  | .read _ :: ops => writtenByBus ops
  | .write a _ :: ops => a :: writtenByBus ops

/-! ### Which instructions may write what -/

/-- The destination register of an instruction that writes COND, IN apart (R23). -/
def condDest : Instr → Option Reg
  | .add dr _ _ | .addImm dr _ _ | .and dr _ _ | .andImm dr _ _ | .not dr _
  | .ld dr _ | .ldi dr _ | .ldr dr _ _ | .lea dr _ => some dr
  | .br _ _ _ _ | .st _ _ | .sti _ _ | .str _ _ _ | .jsr _ | .jsrr _ | .jmp _ | .ret | .rti _ | .res _
  | .trap _ | .getc | .out | .puts | .in_ | .putsp | .halt => none

/-- IN, by its own name or as a TRAP term of vector 0x23. -/
def isIn (i : Instr) : Prop := i = .in_ ∨ i = .trap 0x23#8

/-- BR, the only reader of COND (R23). -/
def isBr : Instr → Bool
  | .br _ _ _ _ => true
  | _ => false

/-- The registers an instruction may write, with TRAP's by vector (R15). -/
def writtenRegs : Instr → List Reg
  | .add dr _ _ | .addImm dr _ _ | .and dr _ _ | .andImm dr _ _ | .not dr _
  | .ld dr _ | .ldi dr _ | .ldr dr _ _ | .lea dr _ => [dr]
  | .jsr _ | .jsrr _ | .out | .puts | .putsp | .halt => [.r7]
  | .getc | .in_ => [.r7, .r0]
  | .trap v => if v = 0x20#8 ∨ v = 0x23#8 then [.r7, .r0] else [.r7]
  | .br _ _ _ _ | .st _ _ | .sti _ _ | .str _ _ _ | .jmp _ | .ret | .rti _ | .res _ => []

/-- The instructions that write memory themselves (R37). -/
def isStore : Instr → Bool
  | .st _ _ | .sti _ _ | .str _ _ _ => true
  | _ => false

/-- The instructions that may leave PC other than at a + 1 (R19). -/
def isTransfer : Instr → Bool
  | .br _ _ _ _ | .jmp _ | .ret | .jsr _ | .jsrr _ => true
  | _ => false

/-- TRAP, by its own name or by a routine's (R74). -/
def isTrap : Instr → Bool
  | .trap _ | .getc | .out | .puts | .in_ | .putsp | .halt => true
  | _ => false

/-! ### The invariant of a step -/

/-- What every step keeps: memory is in canonical form, and while a trap routine is unfinished the unit runs with R7 and
PC both at the address after the TRAP (R115, R125). -/
def StepInv (s : State) : Prop :=
  s.mem.wf = true ∧ (s.hold ≠ none → s.run = .running ∧ s.reg .r7 = s.pc)

/-- The environment neither ends the run, nor cuts the step, nor holds a key down, now or in its next turn. -/
def OrdinaryEnvironment (s : State) : Prop :=
  s.heldKey = none ∧ ∀ t, s.script.head? = some t → ∀ a, a ∈ t → a = .release ∨ ∃ k, a = .press k

end Sys2Proof.Machine
end

