-- ==== Sys2Proof/Certificates/Slice0/Obligations.lean ====
section
/-! DEFINITION. The statements about the machine, for the provers. In every statement about `exec`, the state is the one
after the fetch: PC is the instruction's address plus 1 (10_state.md R18). -/

open Sys2Proof Sys2Proof.Machine

/-! ### Words, flags, registers -/

/-- R6: `sext_n` of the low n bits copies them, replicates bit n-1 above them, keeps the signed value, and is idempotent,
for each of the four widths. -/
def Obligations.SignExtensionFollowsR6 : Prop :=
  ∀ n, n ∈ [5, 6, 9, 11] → ∀ v : Word,
    (∀ i, i < 16 → (sext (v.setWidth n)).getLsbD i = if i < n then v.getLsbD i else v.getLsbD (n - 1)) ∧
    (sext (v.setWidth n)).toInt = (v.setWidth n).toInt ∧
    sext ((sext (v.setWidth n)).setWidth n) = sext (v.setWidth n)

/-- R14: a register holds what was last written to it, all 16 bits, R0 like the others; a write changes no other register
and nothing else; and a selector names the register with its number, each number one register. -/
def Obligations.RegistersHoldWhatIsWritten : Prop :=
  (∀ (s : State) r q v, ((s.setReg r v).reg q = if q = r then v else s.reg q) ∧ (s.setReg r v).pc = s.pc ∧
    (s.setReg r v).cond = s.cond ∧ MemKept [] s (s.setReg r v) ∧ ConsoleKept s (s.setReg r v) ∧
    ControlKept s (s.setReg r v)) ∧
  [0#3, 1#3, 2#3, 3#3, 4#3, 5#3, 6#3, 7#3].map Reg.ofBits = [.r0, .r1, .r2, .r3, .r4, .r5, .r6, .r7]

/-- R22: setcc looks at the register's value only, sets exactly one flag, whatever COND was, and changes nothing else. -/
def Obligations.SetccClassifiesRegister : Prop :=
  ∀ (r : Reg) (s : State) (old : Cond),
    FlagIs (setcc r s).cond (s.reg r) ∧ setcc r (s.setCond old) = setcc r s ∧
    RegsKept [] s (setcc r s) ∧ (setcc r s).pc = s.pc ∧ MemKept [] s (setcc r s) ∧
    ConsoleKept s (setcc r s) ∧ ControlKept s (setcc r s)

/-- R23 (IN that is left unfinished, with no key or cut by the environment, is the model's form, log 8, 9): the seven
instructions set COND from their destination, IN from R0 once it is finished, nothing else writes COND, and no instruction
but BR depends on it. -/
def Obligations.OnlyListedInstructionsUseCond : Prop :=
  (∀ i s t r, exec i s = .next t → condDest i = some r → FlagIs t.cond (t.reg r)) ∧
  (∀ i s t, exec i s = .next t → isIn i →
    (t.hold = none → FlagIs t.cond (t.reg .r0)) ∧ (t.hold ≠ none → t.cond = s.cond)) ∧
  (∀ i s t, exec i s = .next t → condDest i = none → ¬ isIn i → t.cond = s.cond) ∧
  (∀ i s t c, exec i s = .next t → isBr i = false →
    ∃ t', exec i (s.setCond c) = .next t' ∧ t'.setCond .none = t.setCond .none)

/-! ### Operate instructions -/

/-- R80, R81, R85: ADD completes in both forms; the result is the sum modulo 2^16, the flags are its flags. -/
def Obligations.AddGivesSumModulo : Prop :=
  (∀ dr sr1 sr2 s, ∃ t v, exec (.add dr sr1 sr2) s = .next t ∧ WritesDest dr v s t ∧
    v.toNat = ((s.reg sr1).toNat + (s.reg sr2).toNat) % 65536) ∧
  (∀ dr sr1 imm s, ∃ t v, exec (.addImm dr sr1 imm) s = .next t ∧ WritesDest dr v s t ∧
    (v.toNat : Int) = ((s.reg sr1).toNat + imm.toInt) % 65536)

/-- R82, R83: AND completes in both forms, bit by bit; an immediate has its sign bit in bits 15:5. -/
def Obligations.AndGivesBitwiseAnd : Prop :=
  (∀ dr sr1 sr2 s, ∃ t v, exec (.and dr sr1 sr2) s = .next t ∧ WritesDest dr v s t ∧
    ∀ i, v.getLsbD i = ((s.reg sr1).getLsbD i && (s.reg sr2).getLsbD i)) ∧
  (∀ dr sr1 imm s, ∃ t v, exec (.andImm dr sr1 imm) s = .next t ∧ WritesDest dr v s t ∧
    ∀ i, v.getLsbD i = ((s.reg sr1).getLsbD i && if i < 5 then imm.getLsbD i else imm.getLsbD 4))

/-- R84: NOT completes and inverts every one of the 16 bits. -/
def Obligations.NotInvertsEveryBit : Prop :=
  ∀ dr sr s, ∃ t v, exec (.not dr sr) s = .next t ∧ WritesDest dr v s t ∧
    ∀ i, i < 16 → v.getLsbD i = !(s.reg sr).getLsbD i

/-! ### Control transfer -/

/-- R90: BR completes; it is taken when a mask bit names the flag that is set, else PC stays a + 1. -/
def Obligations.BranchTakenByMask : Prop :=
  ∀ n z p off s, ∃ t, exec (.br n z p off) s = .next t ∧ WritesPc t.pc [] s t ∧
    (if (n = true ∧ s.cond = .n) ∨ (z = true ∧ s.cond = .z) ∨ (p = true ∧ s.cond = .p)
      then (t.pc.toNat : Int) = (s.pc.toNat + off.toInt) % 65536 else t.pc = s.pc)

/-- R91, R92: JMP and RET complete; PC takes the register's whole value and nothing is linked. -/
def Obligations.JumpTakesRegister : Prop :=
  (∀ base s, ∃ t, exec (.jmp base) s = .next t ∧ WritesPc (s.reg base) [] s t) ∧
  (∀ s, ∃ t, exec .ret s = .next t ∧ WritesPc (s.reg .r7) [] s t)

/-- R93: JSR completes; R7 takes a + 1 and PC goes to a + 1 + the offset. -/
def Obligations.JsrLinksAndBranches : Prop :=
  ∀ off s, ∃ t, exec (.jsr off) s = .next t ∧ WritesPc t.pc [.r7] s t ∧ t.reg .r7 = s.pc ∧
    (t.pc.toNat : Int) = (s.pc.toNat + off.toInt) % 65536

/-- R94: JSRR completes; R7 takes a + 1 first, so that JSRR R7 goes to a + 1 (the spec's decision D23; log 19). -/
def Obligations.JsrrLinksBeforeReading : Prop :=
  ∀ base s, ∃ t, exec (.jsrr base) s = .next t ∧ t.reg .r7 = s.pc ∧
    WritesPc (if base = .r7 then s.pc else s.reg base) [.r7] s t

/-! ### Loads and stores -/

/-- R101, R100: LD completes with the Word a bus read of PC + sext_9(offset), modulo 2^16, gives. -/
def Obligations.LdLoadsFromPcRelative : Prop :=
  ∀ dr off s, s.mem.wf = true → ∃ v m t, ((pcRelative s off).toNat : Int) = (s.pc.toNat + off.toInt) % 65536 ∧
    BusRead (pcRelative s off) s v m ∧ exec (.ld dr off) s = .next t ∧ WritesDest dr v m t

/-- R102, R100: LDI completes with the Word at the address that the word at PC + sext_9(offset), modulo 2^16, gives, the
pointer read first. -/
def Obligations.LdiLoadsThroughPointer : Prop :=
  ∀ dr off s, s.mem.wf = true → ∃ p m v m' t, ((pcRelative s off).toNat : Int) = (s.pc.toNat + off.toInt) % 65536 ∧
    BusRead (pcRelative s off) s p m ∧ BusRead p m v m' ∧ exec (.ldi dr off) s = .next t ∧ WritesDest dr v m' t

/-- R103, R100: LDR completes with the Word at R[BaseR] + sext_6(offset), modulo 2^16, the base read before DR is written. -/
def Obligations.LdrLoadsFromBaseOffset : Prop :=
  ∀ dr base off s, s.mem.wf = true → ∃ v m t,
    ((baseOffset s base off).toNat : Int) = ((s.reg base).toNat + off.toInt) % 65536 ∧
    BusRead (baseOffset s base off) s v m ∧ exec (.ldr dr base off) s = .next t ∧ WritesDest dr v m t

/-- R104: LEA completes with the address itself and writes COND from it; memory and console are not touched. -/
def Obligations.LeaGivesAddress : Prop :=
  ∀ dr off s, ∃ t v, exec (.lea dr off) s = .next t ∧ WritesDest dr v s t ∧
    (v.toNat : Int) = (s.pc.toNat + off.toInt) % 65536

/-- R105, R100: ST completes; the word at PC + sext_9(offset), modulo 2^16, KBSR and KBDR included, takes the register. -/
def Obligations.StStoresAtPcRelative : Prop :=
  ∀ sr off s, s.mem.wf = true → ∃ t, ((pcRelative s off).toNat : Int) = (s.pc.toNat + off.toInt) % 65536 ∧
    exec (.st sr off) s = .next t ∧ WritesWord (pcRelative s off) (s.reg sr) s t

/-- R106, R100: STI completes; the pointer at PC + sext_9(offset), modulo 2^16, is read on the bus (which may poll), the
store never polls. -/
def Obligations.StiStoresThroughPointer : Prop :=
  ∀ sr off s, s.mem.wf = true → ∃ p m t, ((pcRelative s off).toNat : Int) = (s.pc.toNat + off.toInt) % 65536 ∧
    BusRead (pcRelative s off) s p m ∧ exec (.sti sr off) s = .next t ∧ WritesWord p (s.reg sr) m t

/-- R107, R100: STR completes; the word at R[BaseR] + sext_6(offset), modulo 2^16, takes the register. -/
def Obligations.StrStoresAtBaseOffset : Prop :=
  ∀ sr base off s, s.mem.wf = true → ∃ t,
    ((baseOffset s base off).toNat : Int) = ((s.reg base).toNat + off.toInt) % 65536 ∧
    exec (.str sr base off) s = .next t ∧ WritesWord (baseOffset s base off) (s.reg sr) s t

/-- R108: an STI and the LDI after it that compute one pointer address give LDI's register the stored Word, under the
rule's side conditions (D24; log 29). `s` is the state after STI's fetch; LDI's fetch moves PC on by one. -/
def Obligations.StiThenLdiRoundTrip : Prop :=
  ∀ sr dr off off' s t u, s.mem.wf = true →
    pcRelative s off = pcRelative (s.setPc (s.pc + 1#16)) off' →
    pcRelative s off ≠ Config.kbsr → s.mem.read (pcRelative s off) ≠ Config.kbsr →
    s.mem.read (pcRelative s off) ≠ pcRelative s off →
    exec (.sti sr off) s = .next t → exec (.ldi dr off') (t.setPc (t.pc + 1#16)) = .next u →
    u.reg dr = s.reg sr ∧ FlagIs u.cond (s.reg sr) ∧ u.pc = s.pc + 1#16

/-! ### TRAP and the console routines -/

/-- R115: the vector selects the routine: a TRAP term does what the instruction its vector decodes to does. -/
def Obligations.TrapDispatchesOnVector : Prop :=
  ∀ v s, exec (.trap v) s = exec (decodeVector v) s ∧
    (definedVector v = true ↔ 0x20 ≤ v.toNat ∧ v.toNat ≤ 0x25)

/-- R123, R142: an undefined vector completes with R7 <- a + 1 and nothing else, no event among it. -/
def Obligations.UndefinedVectorOnlyLinks : Prop :=
  ∀ (v : BitVec 8) s, (v.toNat ≤ 0x1F ∨ 0x26 ≤ v.toNat) →
    ∃ t, exec (.trap v) s = .next t ∧ t.reg .r7 = s.pc ∧ WritesPc s.pc [.r7] s t

/-- R117: GETC with a key pending completes: R0 takes the whole key Word, COND stays, the key is gone. -/
def Obligations.GetcTakesPendingKey : Prop :=
  ∀ s k rest, NextKey k rest s → ∃ t, exec .getc s = .next t ∧
    t.reg .r0 = k ∧ t.reg .r7 = s.pc ∧ RegsKept [.r7, .r0] s t ∧ t.pc = s.pc ∧ t.cond = s.cond ∧ MemKept [] s t ∧
    t.keys = rest ∧ t.heldKey = s.heldKey ∧ t.trace = s.trace ++ [.readKey k] ∧ Finished s t

/-- R120: IN with a key pending, not cut by the environment (log 8; the cut IN is in CutStringShowsItsBeginning), completes:
prompt, key, echo in this order; R0 takes the key and COND its flag. The prompt is a free value (log 4); the echo as one
WriteChar is the spec's decision D12 (log 15). -/
def Obligations.InPromptsReadsAndEchoes : Prop :=
  ∀ s k rest, NextKey k rest s → s.cut = none → ∃ t, exec .in_ s = .next t ∧
    t.reg .r0 = k ∧ FlagIs t.cond k ∧ t.reg .r7 = s.pc ∧ RegsKept [.r7, .r0] s t ∧ t.pc = s.pc ∧ MemKept [] s t ∧
    t.keys = rest ∧ t.heldKey = s.heldKey ∧
    t.trace = s.trace ++ Config.inPrompt.map .writeChar ++ [.readKey k, .writeChar k] ∧ Finished s t

/-- R125: GETC and IN with no key wait: R7 is written, IN's prompt is on the console (IN not cut by the environment, log 8),
nothing else has changed. How the wait is held (`hold`) is the model's choice (log 9). -/
def Obligations.GetcAndInWaitForKey : Prop :=
  ∀ s, NoKey s →
    (∃ t, exec .getc s = .next t ∧ t.hold = some .getc ∧ t.trace = s.trace ∧
      t.reg .r7 = s.pc ∧ RegsKept [.r7] s t ∧ t.pc = s.pc ∧ t.cond = s.cond ∧ MemKept [] s t ∧ t.keys = s.keys ∧
      t.heldKey = s.heldKey ∧ t.run = s.run ∧ t.script = s.script ∧ t.cut = s.cut) ∧
    (s.cut = none → ∃ t, exec .in_ s = .next t ∧ t.hold = some (.in_ []) ∧
      t.trace = s.trace ++ Config.inPrompt.map .writeChar ∧
      t.reg .r7 = s.pc ∧ RegsKept [.r7] s t ∧ t.pc = s.pc ∧ t.cond = s.cond ∧ MemKept [] s t ∧ t.keys = s.keys ∧
      t.heldKey = s.heldKey ∧ t.run = s.run ∧ t.script = s.script ∧ t.cut = none)

/-- R125, R117, R120, R163: a waiting trap fetches nothing and changes nothing until the environment gives a key, and then
ends with its own effect. First one step, whatever the environment does in its turn, which leads to `s'`: with no key the
unit goes on waiting; with one, GETC ends, and IN ends unless the turn cuts it before the key is read, where it waits on, or
before the echo, which a later step then writes. Then any number `j` of steps whose turns give no key, and the turn after
them: keys typed in it end the wait with the first of them, and an abort in it ends the run. That the wait is a sequence of
steps is the model's choice (log 9), and so are the turns and the cut (log 8). -/
def Obligations.WaitEndsWithTheKey : Prop :=
  ∀ s, s.run = .running → WaitsForKey s →
    (∀ s', environmentTurn s = some s' → UnitKept s s' ∧
      (NoKey s' → step s = .next s') ∧
      (∀ k rest, NextKey k rest s' →
        (s.hold = some .getc ∨ (∀ n, s'.cut = some n → 2 ≤ n) →
          ∃ t, step s = .next t ∧ WaitEnded k rest s t ∧ t.heldKey = s'.heldKey) ∧
        (s.hold = some (.in_ []) → s'.cut = some 0 → step s = .next s') ∧
        (s.hold = some (.in_ []) → s'.cut = some 1 → ∃ t, step s = .next t ∧ t.hold = some (.echo k) ∧
          t.trace = s.trace ++ [.readKey k] ∧ RegsKept [] s t ∧ t.pc = s.pc ∧ t.cond = s.cond ∧ t.run = .running ∧
          MemKept [] s t ∧ t.keys = rest ∧ t.heldKey = s'.heldKey ∧
          ∀ ts t', environmentTurn (t.setScript ts) = some t' → t'.cut ≠ some 0 → ∃ u,
            step (t.setScript ts) = .next u ∧ WaitEnded k t'.keys s u ∧ u.heldKey = t'.heldKey))) ∧
    (NoKey s → ∀ j, (∀ turn, turn ∈ s.script.take j → GivesNoKey turn) →
      (∃ w : State, Host.Core.run core j s = .next w ∧ UnitKept s w ∧ NoKey w ∧ w.script = s.script.drop j) ∧
      (∀ k later, s.script[j]? = some ((k :: later).map .press) →
        ∃ t : State, Host.Core.run core (j + 1) s = .next t ∧ WaitEnded k later s t ∧ t.heldKey = none ∧
          t.script = s.script.drop (j + 1)) ∧
      (∀ turn, s.script[j]? = some turn → EnvAction.abort ∈ turn → Host.Core.run core (j + 1) s = .fault .aborted))

/-- R118: OUT completes: R0's whole Word is written once, R0 is unchanged. -/
def Obligations.OutWritesWholeWord : Prop :=
  ∀ s, ∃ t, exec .out s = .next t ∧ t.trace = s.trace ++ [.writeChar (s.reg .r0)] ∧ t.reg .r7 = s.pc ∧
    RegsKept [.r7] s t ∧ t.pc = s.pc ∧ t.cond = s.cond ∧ MemKept [] s t ∧ t.keys = s.keys ∧ t.heldKey = s.heldKey ∧
    ControlKept s t

/-- R119: PUTS completes on a terminated string that the environment does not cut (log 8; the cut one is in
CutStringShowsItsBeginning): its words are written in order, one code each, and no more. -/
def Obligations.PutsWritesString : Prop :=
  ∀ s ws, StringAt s (s.reg .r0) ws → s.cut = none → ∃ t, exec .puts s = .next t ∧
    t.trace = s.trace ++ ws.map .writeChar ∧ t.reg .r7 = s.pc ∧
    RegsKept [.r7] s t ∧ t.pc = s.pc ∧ t.cond = s.cond ∧ MemKept [] s t ∧ t.keys = s.keys ∧ t.heldKey = s.heldKey ∧
    Finished s t

/-- R121: PUTSP completes on a terminated string that the environment does not cut (log 8; the cut one is in
CutStringShowsItsBeginning): each word gives its low byte, then its high byte unless that is 0. That the low byte is written
always is the spec's decision D22 (log 18). -/
def Obligations.PutspWritesPackedString : Prop :=
  ∀ s ws, StringAt s (s.reg .r0) ws → s.cut = none → ∃ t, exec .putsp s = .next t ∧
    t.trace = s.trace ++ (ws.flatMap fun w =>
      if w.toNat / 256 = 0 then [BitVec.ofNat 16 (w.toNat % 256)]
      else [BitVec.ofNat 16 (w.toNat % 256), BitVec.ofNat 16 (w.toNat / 256)]).map .writeChar ∧ t.reg .r7 = s.pc ∧
    RegsKept [.r7] s t ∧ t.pc = s.pc ∧ t.cond = s.cond ∧ MemKept [] s t ∧ t.keys = s.keys ∧ t.heldKey = s.heldKey ∧
    Finished s t

/-- R119, R121, R126: PUTS and PUTSP, not cut by the environment (log 8), do exactly the spec's unbounded loop, polls at KBSR
included. Where the loop ends they answer its last state. Where it never ends they stay unfinished: after any number `k` of
further steps the routine still goes on, its state is the one the loop reaches once the codes `cs` of its last Word are
written, and at least `k` characters are out, so that the output has no bound. That an endless routine is an endless row of
next states is the model's choice (log 11); the polls inside a string are the spec's decision D14 (log 17). -/
def Obligations.StringRoutinesAreTheLoop : Prop :=
  ∀ (form : StringForm) s, s.mem.wf = true → s.cut = none →
    (∀ t, StringRun form.codes (s.reg .r0) (trapEntry s) t → exec form.instr s = .next (t.setHold none)) ∧
    ((¬ ∃ t, StringRun form.codes (s.reg .r0) (trapEntry s) t) → ∃ u, exec form.instr s = .next u ∧ u.hold ≠ none ∧
      (s.run = .running → s.script = [] → ∀ k, ∃ v cs p t ev, Host.Core.run core k u = .next v ∧
        v.hold = some (.string form cs p) ∧ StringPart form.codes (s.reg .r0) (trapEntry s) p t ∧
        writeChars cs v = t.setHold v.hold ∧ v.trace = s.trace ++ ev ∧ k ≤ (written ev).length))

/-- R163, R126 (D18; how a cut is asked for and held is the model's choice, log 8, 9): the environment may cut in while a
string or a prompt is being written. What was written before the cut is out, in order; an abort then ends the run as
ABORTED; and if its turn there neither ends the run nor asks for another cut, the next step writes the rest, whatever keys
the turn gives: IN then takes its key, or waits where there is none. PUTS reads and writes in turn, so `n` operations write
n / 2 characters. IN may also be cut between its key and its echo. -/
def Obligations.CutStringShowsItsBeginning : Prop :=
  ∀ s n, s.cut = some n → s.run = .running →
    (∀ ws, StringAt s (s.reg .r0) ws → n ≤ 2 * ws.length → ∃ t, exec .puts s = .next t ∧
      t.trace = s.trace ++ (ws.take (n / 2)).map .writeChar ∧ t.hold ≠ none ∧ t.reg .r7 = s.pc ∧ RegsKept [.r7] s t ∧
      t.pc = s.pc ∧ t.cond = s.cond ∧ MemKept [] s t ∧ t.keys = s.keys ∧ step (t.setScript [[.abort]]) = .fault .aborted ∧
      ∀ ts t', environmentTurn (t.setScript ts) = some t' → t'.cut = none →
        ∃ u, step (t.setScript ts) = .next u ∧ u.hold = none ∧ u.trace = s.trace ++ ws.map .writeChar) ∧
    (∀ ws codes, StringAt s (s.reg .r0) ws → codes = ws.flatMap StringForm.putsp.codes → n ≤ ws.length + codes.length →
      ∃ t j, exec .putsp s = .next t ∧ n / 2 ≤ j ∧ j ≤ n ∧ t.trace = s.trace ++ (codes.take j).map .writeChar ∧
      t.hold ≠ none ∧ t.reg .r7 = s.pc ∧ RegsKept [.r7] s t ∧ t.pc = s.pc ∧ t.cond = s.cond ∧ MemKept [] s t ∧
      t.keys = s.keys ∧ step (t.setScript [[.abort]]) = .fault .aborted ∧
      ∀ ts t', environmentTurn (t.setScript ts) = some t' → t'.cut = none →
        ∃ u, step (t.setScript ts) = .next u ∧ u.hold = none ∧ u.trace = s.trace ++ codes.map .writeChar) ∧
    (n ≤ Config.inPrompt.length → ∃ t, exec .in_ s = .next t ∧
      t.trace = s.trace ++ (Config.inPrompt.take n).map .writeChar ∧ t.hold = some (.in_ (Config.inPrompt.drop n)) ∧
      t.reg .r7 = s.pc ∧ RegsKept [.r7] s t ∧ t.pc = s.pc ∧ t.cond = s.cond ∧ MemKept [] s t ∧ t.keys = s.keys ∧
      step (t.setScript [[.abort]]) = .fault .aborted ∧
      ∀ ts t', environmentTurn (t.setScript ts) = some t' → t'.cut = none →
        (∀ k rest, NextKey k rest t' → ∃ u, step (t.setScript ts) = .next u ∧ u.hold = none ∧ u.reg .r0 = k ∧
          FlagIs u.cond k ∧ u.keys = rest ∧
          u.trace = s.trace ++ Config.inPrompt.map .writeChar ++ [.readKey k, .writeChar k]) ∧
        (NoKey t' → ∃ u, step (t.setScript ts) = .next u ∧ u.hold = some (.in_ []) ∧ u.cond = s.cond ∧ RegsKept [.r7] s u ∧
          u.trace = s.trace ++ Config.inPrompt.map .writeChar)) ∧
    (n = Config.inPrompt.length + 1 → ∀ k rest, NextKey k rest s → ∃ t, exec .in_ s = .next t ∧ t.hold = some (.echo k) ∧
      t.trace = s.trace ++ Config.inPrompt.map .writeChar ++ [.readKey k] ∧ t.reg .r7 = s.pc ∧ RegsKept [.r7] s t ∧
      t.pc = s.pc ∧ t.cond = s.cond ∧ MemKept [] s t ∧ t.keys = rest ∧ step (t.setScript [[.abort]]) = .fault .aborted ∧
      ∀ ts t', environmentTurn (t.setScript ts) = some t' → t'.cut = none →
        ∃ u, step (t.setScript ts) = .next u ∧ u.hold = none ∧ u.reg .r0 = k ∧ FlagIs u.cond k ∧
          u.trace = t.trace ++ [.writeChar k])

/-- R122: HALT completes: RUN is HALTED, R7 and PC are a + 1, all else is as before. No halt message is written (D13; log
16), and R7 is written as by every TRAP (C2; log 25). -/
def Obligations.HaltStopsTheRun : Prop :=
  ∀ s, ∃ t, exec .halt s = .next t ∧ t.run = .halted ∧ t.reg .r7 = s.pc ∧ RegsKept [.r7] s t ∧ t.pc = s.pc ∧
    t.cond = s.cond ∧ MemKept [] s t ∧ ConsoleKept s t ∧ t.hold = s.hold ∧ t.script = s.script ∧ t.cut = s.cut

/-- R148, R150: whatever its routine, a TRAP saves the return address in R7 and nothing else, leaves PC at a + 1, pushes
nothing, and the old R7 has no effect and is gone. -/
def Obligations.TrapSavesOnlyReturnAddress : Prop :=
  ∀ i s, isTrap i = true →
    (∀ t, exec i s = .next t → t.reg .r7 = s.pc ∧ t.pc = s.pc ∧ RegsKept [.r7, .r0] s t ∧
      MemKept [Config.kbsr, Config.kbdr] s t ∧ (¬ isIn i → t.cond = s.cond)) ∧
    (∀ old, exec i (s.setReg .r7 old) = exec i s)

/-! ### Reserved opcodes -/

/-- R135, R136, R141: RTI and RES complete with one diagnostic event naming the address a and the whole Word, and nothing
else. That the event is recorded in `trace` is the spec's framing (D16; log 10). -/
def Obligations.ReservedOpcodesOnlyReport : Prop :=
  ∀ (bits : BitVec 12) s,
    (∃ t, exec (.rti bits) s = .next t ∧
      t.trace = s.trace ++ [.invalidOpcode (s.pc - 1#16) (BitVec.ofNat 16 (0x8000 + bits.toNat))] ∧
      RegsKept [] s t ∧ t.pc = s.pc ∧ t.cond = s.cond ∧ MemKept [] s t ∧ t.keys = s.keys ∧ t.heldKey = s.heldKey ∧
      ControlKept s t) ∧
    (∃ t, exec (.res bits) s = .next t ∧
      t.trace = s.trace ++ [.invalidOpcode (s.pc - 1#16) (BitVec.ofNat 16 (0xD000 + bits.toNat))] ∧
      RegsKept [] s t ∧ t.pc = s.pc ∧ t.cond = s.cond ∧ MemKept [] s t ∧ t.keys = s.keys ∧ t.heldKey = s.heldKey ∧
      ControlKept s t)

/-! ### What instructions leave alone, all of them at once -/

/-- R15: an instruction writes no register but those its row names. -/
def Obligations.RegistersWrittenAsTabled : Prop :=
  ∀ i s t, exec i s = .next t → RegsKept (writtenRegs i) s t

/-- R37: only ST, STI, STR write memory; every other instruction changes at most KBSR and KBDR, and those only by a poll. -/
def Obligations.MemoryWrittenOnlyByStores : Prop :=
  ∀ i s t, exec i s = .next t → isStore i = false →
    MemKept [Config.kbsr, Config.kbdr] s t ∧
    (∀ ev, t.trace = s.trace ++ ev → (∀ k, Event.pollKey k ∉ ev) → MemKept [] s t)

/-- R19: every instruction but BR, JMP, RET, JSR, JSRR leaves PC at a + 1. -/
def Obligations.PcLeftAsTabled : Prop :=
  ∀ i s t, exec i s = .next t → isTransfer i = false → t.pc = s.pc

/-- R159, R9, R146: WriteChar and ReadKey are TRAP's alone. Another instruction reaches the console only by the poll that a
bus read of KBSR makes, and takes a pending key only by such a poll; what else it passes at a port is the diagnostic. -/
def Obligations.WriteCharAndReadKeyOnlyByTrap : Prop :=
  ∀ i s t, exec i s = .next t → isTrap i = false →
    ∃ ev, t.trace = s.trace ++ ev ∧
      (∀ e, e ∈ ev → (∃ k, e = .pollKey k) ∨ ∃ a w, e = .invalidOpcode a w) ∧
      ((∀ k, Event.pollKey k ∉ ev) → t.keys = s.keys)

/-- R31, R40: the unit only takes keys, and takes them from the front. That pending keys form a FIFO is the simulator
model the spec offers (D9; log 7); `heldKey`, `script` and `cut` are the model's environment (log 8). -/
def Obligations.KeysLeaveFromTheFront : Prop :=
  ∀ i s t, exec i s = .next t →
    (∃ taken, s.keys = taken ++ t.keys) ∧ t.heldKey = s.heldKey ∧ t.script = s.script ∧ t.cut = s.cut

/-! ### Memory and the MemoryBus -/

/-- Two memories in canonical form that read alike at every address are the same list. The list form is the model's (log
6). -/
def Obligations.CanonicalMemoryIsExtensional : Prop :=
  ∀ m m' : Memory, m.wf = true → m'.wf = true → (∀ a, m.read a = m'.read a) → m = m'

/-- R38, R40: what a MemoryBus read answers and changes, at every address. The value 0x8000 is the spec's decision D7 (log
13). -/
def Obligations.BusReadPollsOnlyAtStatus : Prop :=
  ∀ a s, s.mem.wf = true → BusRead a s (memRead a s).1 (memRead a s).2

/-- R56: a word written anywhere but KBSR is read back; anywhere but KBSR and KBDR it stays so through any accesses that
do not write that address; at KBDR it stays so as long as no poll finds a key; at KBSR a read overwrites whatever was
written, so that what it answers does not depend on it. -/
def Obligations.BusRoundTrip : Prop :=
  ∀ a v (s : State), s.mem.wf = true →
    (a ≠ Config.kbsr → (memRead a (s.memWrite a v)).1 = v) ∧
    (∀ ops, a ≠ Config.kbsr → a ≠ Config.kbdr → a ∉ writtenByBus ops →
      (memRead a (runBus ops (s.memWrite a v))).1 = v) ∧
    (∀ ops, a = Config.kbdr → a ∉ writtenByBus ops →
      (∀ ev, (runBus ops (s.memWrite a v)).trace = s.trace ++ ev → ∀ k, Event.pollKey (some k) ∉ ev) →
      (memRead a (runBus ops (s.memWrite a v))).1 = v) ∧
    (∀ v', a = Config.kbsr → (memRead a (s.memWrite a v)).1 = (memRead a (s.memWrite a v')).1)

/-- R40, R41: two status reads in a row with keys c, d pending both find a key and leave the second in KBDR; with one key
pending the second read gives 0 and KBDR keeps the code; reading KBDR in between changes nothing. That two keys wait
in a FIFO is the simulator form of D9 (log 7). -/
def Obligations.StatusReadConsumesKey : Prop :=
  ∀ s c, s.mem.wf = true → s.heldKey = none →
    (∀ d rest, s.keys = c :: d :: rest →
      (memRead Config.kbsr s).1 = 0x8000#16 ∧
      (memRead Config.kbsr (memRead Config.kbsr s).2).1 = 0x8000#16 ∧
      (memRead Config.kbsr (memRead Config.kbsr s).2).2.mem.read Config.kbdr = d ∧
      (memRead Config.kbsr (memRead Config.kbsr s).2).2.keys = rest) ∧
    (s.keys = [c] →
      (memRead Config.kbsr s).1 = 0x8000#16 ∧
      memRead Config.kbdr (memRead Config.kbsr s).2 = (c, (memRead Config.kbsr s).2) ∧
      (memRead Config.kbsr (memRead Config.kbsr s).2).1 = 0x0000#16 ∧
      (memRead Config.kbsr (memRead Config.kbsr s).2).2.mem.read Config.kbdr = c)

/-- R53: the Word a store instruction stored is what the next fetch of that address returns, the very next instruction
included. -/
def Obligations.StoreIsSeenByNextFetch : Prop :=
  ∀ s sr, s.mem.wf = true →
    (∀ off t, exec (.st sr off) s = .next t → pcRelative s off ≠ Config.kbsr →
      (fetch (t.setPc (pcRelative s off))).1 = s.reg sr) ∧
    (∀ base off t, exec (.str sr base off) s = .next t → baseOffset s base off ≠ Config.kbsr →
      (fetch (t.setPc (baseOffset s base off))).1 = s.reg sr) ∧
    (∀ off t, exec (.sti sr off) s = .next t → (indirect s off).1 ≠ Config.kbsr →
      (fetch (t.setPc (indirect s off).1)).1 = s.reg sr)

/-! ### The step -/

/-- R18: a running unit with no trap unfinished fetches at PC, adds 1 to PC and does what `exec` does with the decoded
instruction. That the environment has its turn before every step is the model's choice (log 8), and so is the unfinished
trap, which goes on instead of a fetch (log 9). A fetch from KBSR polls (R54): FetchFromStatusPolls. -/
def Obligations.StepRunsDecoded : Prop :=
  ∀ s s', s.run = .running → environmentTurn s = some s' → s'.hold = none → s'.pc ≠ Config.kbsr →
    step s = exec (decode (s'.mem.read s'.pc)) (s'.setPc (s'.pc + 1#16)) ∧
    (s.script = [] → s' = s.setCut none)

/-- R146, R172: in its turn the environment changes nothing of the unit; a key it presses joins the pending keys at the
end; and a cut it asks for holds for the coming step only. That it acts between two steps, or where it cuts in, is the
model's choice (log 8). -/
def Obligations.EnvironmentOnlyTouchesTheConsole : Prop :=
  (∀ s s', environmentTurn s = some s' → s'.regs = s.regs ∧ s'.pc = s.pc ∧ s'.cond = s.cond ∧ s'.run = s.run ∧
    s'.mem = s.mem ∧ s'.hold = s.hold ∧ s'.trace = s.trace ∧ s'.script = s.script.tail ∧ ∃ new, s'.keys = s.keys ++ new) ∧
  (∀ s ks ts, s.script = ks.map .press :: ts → ∃ s', environmentTurn s = some s' ∧ s'.keys = s.keys ++ ks ∧
    s'.heldKey = s.heldKey) ∧
  (∀ s n ts, s.script = [.cut n] :: ts → ∃ s', environmentTurn s = some s' ∧ s'.cut = some n) ∧
  (∀ s s', environmentTurn s = some s' → (∀ t n, s.script.head? = some t → EnvAction.cut n ∉ t) → s'.cut = none)

/-- R54: a fetch from KBSR polls; the instruction is RTI's Word 0x8000 when a key was pending, else the no-op BR 0x0000. `s'`
is the state after the environment's turn, in which the key may come (that it comes there is the model's choice, log 8). -/
def Obligations.FetchFromStatusPolls : Prop :=
  ∀ s s', s.mem.wf = true → s.run = .running → environmentTurn s = some s' → s'.hold = none → s'.pc = Config.kbsr →
    (∀ k rest, NextKey k rest s' → ∃ t, step s = .next t ∧ t.pc = 0xFE01#16 ∧ t.mem.read Config.kbdr = k ∧ t.keys = rest ∧
      t.trace = s.trace ++ [.pollKey (some k), .invalidOpcode 0xFE00#16 0x8000#16] ∧ RegsKept [] s t ∧ t.cond = s.cond) ∧
    (NoKey s' → ∃ t, step s = .next t ∧ t.pc = 0xFE01#16 ∧ MemKept [Config.kbsr] s t ∧ t.keys = s'.keys ∧
      t.trace = s.trace ++ [.pollKey none] ∧ RegsKept [] s t ∧ t.cond = s.cond)

/-- R26: RUN is RUNNING after reset; HALTED is terminal for any number of steps; a running unit reaches it only by a
fetched HALT; and no instruction reads RUN. That a step asked of a HALTED unit answers the same state is the model's
choice (log 12). -/
def Obligations.HaltedOnlyByHaltAndForEver : Prop :=
  State.reset.run = .running ∧
  (∀ s k, s.run = .halted → Host.Core.run core k s = .next s) ∧
  (∀ s t, s.run = .running → step s = .next t → t.run = .halted →
    ∃ s', environmentTurn s = some s' ∧ s'.hold = none ∧ decode (fetch s').1 = .halt) ∧
  (∀ s, ∃ t, exec .halt s = .next t ∧ t.run = .halted) ∧
  (∀ i s t q, exec i s = .next t → ∃ t', exec i { s with run := q } = .next t' ∧ { t' with run := t.run } = t)

/-- R163: the run is ABORTED exactly when the environment's turn ends it, never by an instruction, and then it is not
HALTED: there is no next state. Where the abort falls is the model's choice: in the environment's turn, which comes before
every step and wherever the environment cuts into a prompt or string (log 8). -/
def Obligations.AbortOnlyByEnvironment : Prop :=
  (∀ s, step s = .fault .aborted ↔ s.run = .running ∧ ∃ t, s.script.head? = some t ∧ EnvAction.abort ∈ t) ∧
  (∀ i s, exec i s ≠ .fault .aborted)

/-- R68, R140, R144: no Word is refused and nothing an instruction meets stops the unit: every instruction answers a next
state on every state, and a step fails to answer one only where the unit runs and the environment's turn ends the run
(R163). The spec has no completed step where this one answers a next state in four cases, and there the next state is the
model's choice: GETC and IN with no key (R117, R125), whose unfinished routine stays in `hold` (log 9); a prompt or string
that the environment cuts (R163; log 8, 9); a string with no end (R126; log 11); and a HALTED unit, which takes no step
(R26) and answers itself (log 12). -/
def Obligations.StepNeverRefuses : Prop :=
  (∀ i s, ∃ t, exec i s = .next t) ∧
  (∀ s, (∃ t, step s = .next t) ∨
    (step s = .fault .aborted ∧ s.run = .running ∧ ∃ t, s.script.head? = some t ∧ EnvAction.abort ∈ t))

/-- R68, R126, R149: in an environment that neither ends the run, nor cuts the step, nor holds a key down, every step of a
running unit ends with its routine finished, PUTS and PUTSP over any memory among them; but GETC and IN wait where the
console has no key. The environment's script is the model's (log 8), and so is the form of the wait (log 9). -/
def Obligations.OrdinaryStepCompletes : Prop :=
  ∀ s, s.mem.wf = true → s.run = .running → OrdinaryEnvironment s →
    ∃ t, step s = .next t ∧ (t.hold = none ∨ (WaitsForKey t ∧ NoKey t))

/-- Every step keeps memory canonical, and an unfinished trap running with R7 = PC (R36, R125). The canonical form and `hold`
are the model's (log 6, 9). -/
def Obligations.StepKeepsInvariant : Prop :=
  ∀ s t, StepInv s → step s = .next t → StepInv t

/-- The invariant holds at reset. The reset PC 0x3000 is the model's choice (log 3). -/
def Obligations.ResetMeetsInvariant : Prop := StepInv State.reset

/-- R25 (with no flag at reset, D4; log 1): once a flag is set, some flag is set after every step; a step that runs a
flag-writing instruction sets one, IN when it is finished among them; and with none set BR is not taken. -/
def Obligations.FlagStaysSet : Prop :=
  (∀ s t, step s = .next t → s.cond ≠ .none → t.cond ≠ .none) ∧
  (∀ i s t r, exec i s = .next t → condDest i = some r → t.cond ≠ .none) ∧
  (∀ i s t, exec i s = .next t → isIn i → t.hold = none → t.cond ≠ .none) ∧
  (∀ s n z p off, s.cond = .none → exec (.br n z p off) s = .next s)

/-- R31, R57, R141: what passed at the ports is only added to, and no step depends on it. The record `trace` is the
model's (log 10). -/
def Obligations.TraceGrowsAndIsNeverRead : Prop :=
  (∀ s t, step s = .next t → ∃ ev, t.trace = s.trace ++ ev ∧
    ∀ tr, step { s with trace := tr } = .next { t with trace := tr ++ ev }) ∧
  (∀ s f, step s = .fault f → ∀ tr, step { s with trace := tr } = .fault f)

/-! ### Encoding -/

/-- R61 to R75: every well-formed instruction is read back from its own word, so no two have one word. The opcode numbers
and field positions are the spec's decisions D1 to D3 (log 2). -/
def Obligations.DecodeReadsEncodedBack : Prop :=
  (∀ i : Instr, i.wellFormed = true → decode (encode i) = i) ∧
  (∀ i j : Instr, i.wellFormed = true → j.wellFormed = true → encode i = encode j → i = j)

/-- R67, R68: every Word decodes to a well-formed instruction whose own word agrees with it on every bit the decoder looks
at; and any Word that agrees on those bits is the same instruction. -/
def Obligations.EveryWordIsItsInstruction : Prop :=
  (∀ w : Word, (decode w).wellFormed = true) ∧
  (∀ w : Word, encode (decode w) &&& significantBits (decode w) = w &&& significantBits (decode w)) ∧
  (∀ w w' : Word, w' &&& significantBits (decode w) = w &&& significantBits (decode w) → decode w' = decode w)

/-- R63, R73, R74: a few words written out from the formats are the instructions they stand for. -/
def Obligations.SampleWordsDecode : Prop :=
  decode 0b0001010000000001#16 = .add .r2 .r0 .r1 ∧ decode 0b0001001001111111#16 = .addImm .r1 .r1 31#5 ∧
  decode 0b0000010000000101#16 = .br false true false 5#9 ∧ decode 0b0110001010111111#16 = .ldr .r1 .r2 63#6 ∧
  decode 0b1011001000000001#16 = .sti .r1 1#9 ∧ decode 0b0100100000000010#16 = .jsr 2#11 ∧
  decode 0b1111000000100010#16 = .puts ∧ decode 0b1000101010111100#16 = .rti 0xABC#12

/-- A word placed with `withFetchWord` is the instruction the very next step runs, from any state. How a program comes to
memory is log 5. -/
def Obligations.PlacedWordIsRun : Prop :=
  ∀ (s : State) (w : Nat), s.mem.wf = true → w < 65536 →
    step (s.withFetchWord 16 w) =
      exec (decode (BitVec.ofNat 16 w))
        ((s.withFetchWord 16 w).setPc ((if s.pc = Config.kbsr then 0x3000#16 else s.pc) + 1#16))

/-! ### Reset, loader, image file -/

/-- R32, R166, R171: an image that fits is in memory at its origin with zero everywhere else; the registers are zero, no
flag is set (D4; log 1), the unit runs, PC is the caller's START_PC; an image that does not fit is refused (D19; log
21). -/
def Obligations.BootLoadsImage : Prop :=
  ∀ startPc origin words,
    (imageOk origin words = true → ∃ t, boot startPc origin words = .next t ∧
      (∀ i w, words[i]? = some w → t.mem.read (BitVec.ofNat 16 (origin.toNat + i)) = w) ∧
      (∀ a : Word, (a.toNat < origin.toNat ∨ origin.toNat + words.length ≤ a.toNat) → t.mem.read a = 0x0000#16) ∧
      (∀ r, t.reg r = 0x0000#16) ∧ t.cond = .none ∧ t.run = .running ∧ t.pc = startPc ∧ StepInv t) ∧
    (imageOk origin words = true ↔ origin.toNat + words.length ≤ 65536 ∧
      ∀ i w, words[i]? = some w → (origin.toNat + i = 0xFE00 ∨ origin.toNat + i = 0xFE02) → w = 0x0000#16) ∧
    (imageOk origin words = false → boot startPc origin words = .refused .imageRefused)

/-- R170: an image file is its origin and its words, each high byte first, and an odd trailing byte is dropped. -/
def Obligations.ImageFileIsBigEndian : Prop :=
  ∀ (origin : Word) (words : List Word) (trailing : List Byte), trailing.length ≤ 1 →
    parseImage (((origin :: words).flatMap fun w =>
      [BitVec.ofNat 8 (w.toNat / 256), BitVec.ofNat 8 (w.toNat % 256)]) ++ trailing) = some (origin, words)
end

