-- ==== Sys2Proof/Laws/Decode.lean ====
section
/-! SUPPORT. The fields of an encoded instruction read back, one lemma per format (30_encoding.md R63 to R75). -/

namespace Sys2Proof

@[simp] theorem Reg.ofBits_toBits (r : Reg) : Reg.ofBits r.toBits = r := by cases r <;> rfl

@[simp] theorem Reg.toBits_ofBits (b : BitVec 3) : (Reg.ofBits b).toBits = b := by revert b; decide

@[simp] theorem flagBit_getLsbD_zero (b : Bool) : (flagBit b).getLsbD 0 = b := by cases b <;> rfl

/-- Format BR. -/
theorem fields_BR (op : BitVec 4) (n z p : BitVec 1) (off : BitVec 9) :
    opcodeField (op ++ n ++ z ++ p ++ off) = op ∧
    (op ++ n ++ z ++ p ++ off : Word).getLsbD 11 = n.getLsbD 0 ∧
    (op ++ n ++ z ++ p ++ off : Word).getLsbD 10 = z.getLsbD 0 ∧
    (op ++ n ++ z ++ p ++ off : Word).getLsbD 9 = p.getLsbD 0 ∧
    pcOffset9 (op ++ n ++ z ++ p ++ off) = off := by
  refine ⟨?_, ?_, ?_, ?_, ?_⟩
  · apply BitVec.eq_of_getLsbD_eq
    intro i hi
    simp only [opcodeField, BitVec.getLsbD_extractLsb', BitVec.getLsbD_append, hi]
    interval_cases i <;> simp
  · simp only [BitVec.getLsbD_append]; simp
  · simp only [BitVec.getLsbD_append]; simp
  · simp only [BitVec.getLsbD_append]; simp
  · apply BitVec.eq_of_getLsbD_eq
    intro i hi
    simp only [pcOffset9, BitVec.getLsbD_extractLsb', BitVec.getLsbD_append, hi]
    interval_cases i <;> simp

/-- Format OPR. -/
theorem fields_OPR (op : BitVec 4) (a b : BitVec 3) (m : BitVec 1) (ign : BitVec 2) (c : BitVec 3) :
    opcodeField (op ++ a ++ b ++ m ++ ign ++ c) = op ∧
    immMode (op ++ a ++ b ++ m ++ ign ++ c) = m.getLsbD 0 ∧
    reg11_9 (op ++ a ++ b ++ m ++ ign ++ c) = Reg.ofBits a ∧
    reg8_6 (op ++ a ++ b ++ m ++ ign ++ c) = Reg.ofBits b ∧
    reg2_0 (op ++ a ++ b ++ m ++ ign ++ c) = Reg.ofBits c := by
  refine ⟨?_, ?_, congrArg Reg.ofBits ?_, congrArg Reg.ofBits ?_, congrArg Reg.ofBits ?_⟩
  · apply BitVec.eq_of_getLsbD_eq
    intro i hi
    simp only [opcodeField, BitVec.getLsbD_extractLsb', BitVec.getLsbD_append, hi]
    interval_cases i <;> simp
  · simp only [immMode, BitVec.getLsbD_append]; simp
  · apply BitVec.eq_of_getLsbD_eq
    intro i hi
    simp only [BitVec.getLsbD_extractLsb', BitVec.getLsbD_append, hi]
    interval_cases i <;> simp
  · apply BitVec.eq_of_getLsbD_eq
    intro i hi
    simp only [BitVec.getLsbD_extractLsb', BitVec.getLsbD_append, hi]
    interval_cases i <;> simp
  · apply BitVec.eq_of_getLsbD_eq
    intro i hi
    simp only [BitVec.getLsbD_extractLsb', BitVec.getLsbD_append, hi]
    interval_cases i <;> simp

/-- Format OPI. -/
theorem fields_OPI (op : BitVec 4) (a b : BitVec 3) (m : BitVec 1) (imm : BitVec 5) :
    opcodeField (op ++ a ++ b ++ m ++ imm) = op ∧
    immMode (op ++ a ++ b ++ m ++ imm) = m.getLsbD 0 ∧
    reg11_9 (op ++ a ++ b ++ m ++ imm) = Reg.ofBits a ∧
    reg8_6 (op ++ a ++ b ++ m ++ imm) = Reg.ofBits b ∧
    imm5 (op ++ a ++ b ++ m ++ imm) = imm := by
  refine ⟨?_, ?_, congrArg Reg.ofBits ?_, congrArg Reg.ofBits ?_, ?_⟩
  · apply BitVec.eq_of_getLsbD_eq
    intro i hi
    simp only [opcodeField, BitVec.getLsbD_extractLsb', BitVec.getLsbD_append, hi]
    interval_cases i <;> simp
  · simp only [immMode, BitVec.getLsbD_append]; simp
  · apply BitVec.eq_of_getLsbD_eq
    intro i hi
    simp only [BitVec.getLsbD_extractLsb', BitVec.getLsbD_append, hi]
    interval_cases i <;> simp
  · apply BitVec.eq_of_getLsbD_eq
    intro i hi
    simp only [BitVec.getLsbD_extractLsb', BitVec.getLsbD_append, hi]
    interval_cases i <;> simp
  · apply BitVec.eq_of_getLsbD_eq
    intro i hi
    simp only [imm5, BitVec.getLsbD_extractLsb', BitVec.getLsbD_append, hi]
    interval_cases i <;> simp

/-- Format PCL and PCS. -/
theorem fields_PCL (op : BitVec 4) (a : BitVec 3) (off : BitVec 9) :
    opcodeField (op ++ a ++ off) = op ∧
    reg11_9 (op ++ a ++ off) = Reg.ofBits a ∧
    pcOffset9 (op ++ a ++ off) = off := by
  refine ⟨?_, congrArg Reg.ofBits ?_, ?_⟩
  · apply BitVec.eq_of_getLsbD_eq
    intro i hi
    simp only [opcodeField, BitVec.getLsbD_extractLsb', BitVec.getLsbD_append, hi]
    interval_cases i <;> simp
  · apply BitVec.eq_of_getLsbD_eq
    intro i hi
    simp only [BitVec.getLsbD_extractLsb', BitVec.getLsbD_append, hi]
    interval_cases i <;> simp
  · apply BitVec.eq_of_getLsbD_eq
    intro i hi
    simp only [pcOffset9, BitVec.getLsbD_extractLsb', BitVec.getLsbD_append, hi]
    interval_cases i <;> simp

/-- Format BOL, BOS, JMP and NOT. -/
theorem fields_BOL (op : BitVec 4) (a b : BitVec 3) (off : BitVec 6) :
    opcodeField (op ++ a ++ b ++ off) = op ∧
    reg11_9 (op ++ a ++ b ++ off) = Reg.ofBits a ∧
    reg8_6 (op ++ a ++ b ++ off) = Reg.ofBits b ∧
    offset6 (op ++ a ++ b ++ off) = off := by
  refine ⟨?_, congrArg Reg.ofBits ?_, congrArg Reg.ofBits ?_, ?_⟩
  · apply BitVec.eq_of_getLsbD_eq
    intro i hi
    simp only [opcodeField, BitVec.getLsbD_extractLsb', BitVec.getLsbD_append, hi]
    interval_cases i <;> simp
  · apply BitVec.eq_of_getLsbD_eq
    intro i hi
    simp only [BitVec.getLsbD_extractLsb', BitVec.getLsbD_append, hi]
    interval_cases i <;> simp
  · apply BitVec.eq_of_getLsbD_eq
    intro i hi
    simp only [BitVec.getLsbD_extractLsb', BitVec.getLsbD_append, hi]
    interval_cases i <;> simp
  · apply BitVec.eq_of_getLsbD_eq
    intro i hi
    simp only [offset6, BitVec.getLsbD_extractLsb', BitVec.getLsbD_append, hi]
    interval_cases i <;> simp

/-- Format JSR. -/
theorem fields_JSR (op : BitVec 4) (m : BitVec 1) (off : BitVec 11) :
    opcodeField (op ++ m ++ off) = op ∧
    jsrMode (op ++ m ++ off) = m.getLsbD 0 ∧
    pcOffset11 (op ++ m ++ off) = off := by
  refine ⟨?_, ?_, ?_⟩
  · apply BitVec.eq_of_getLsbD_eq
    intro i hi
    simp only [opcodeField, BitVec.getLsbD_extractLsb', BitVec.getLsbD_append, hi]
    interval_cases i <;> simp
  · simp only [jsrMode, BitVec.getLsbD_append]; simp
  · apply BitVec.eq_of_getLsbD_eq
    intro i hi
    simp only [pcOffset11, BitVec.getLsbD_extractLsb', BitVec.getLsbD_append, hi]
    interval_cases i <;> simp

/-- Format JSRR. -/
theorem fields_JSRR (op : BitVec 4) (m : BitVec 1) (x : BitVec 2) (b : BitVec 3) (y : BitVec 6) :
    opcodeField (op ++ m ++ x ++ b ++ y) = op ∧
    jsrMode (op ++ m ++ x ++ b ++ y) = m.getLsbD 0 ∧
    reg8_6 (op ++ m ++ x ++ b ++ y) = Reg.ofBits b := by
  refine ⟨?_, ?_, congrArg Reg.ofBits ?_⟩
  · apply BitVec.eq_of_getLsbD_eq
    intro i hi
    simp only [opcodeField, BitVec.getLsbD_extractLsb', BitVec.getLsbD_append, hi]
    interval_cases i <;> simp
  · simp only [jsrMode, BitVec.getLsbD_append]; simp
  · apply BitVec.eq_of_getLsbD_eq
    intro i hi
    simp only [BitVec.getLsbD_extractLsb', BitVec.getLsbD_append, hi]
    interval_cases i <;> simp

/-- Format TRAP. -/
theorem fields_TRAP (op : BitVec 4) (ign : BitVec 4) (v : BitVec 8) :
    opcodeField (op ++ ign ++ v) = op ∧
    trapVect8 (op ++ ign ++ v) = v := by
  refine ⟨?_, ?_⟩
  · apply BitVec.eq_of_getLsbD_eq
    intro i hi
    simp only [opcodeField, BitVec.getLsbD_extractLsb', BitVec.getLsbD_append, hi]
    interval_cases i <;> simp
  · apply BitVec.eq_of_getLsbD_eq
    intro i hi
    simp only [trapVect8, BitVec.getLsbD_extractLsb', BitVec.getLsbD_append, hi]
    interval_cases i <;> simp

/-- Format NONE. -/
theorem fields_NONE (op : BitVec 4) (bits : BitVec 12) :
    opcodeField (op ++ bits) = op ∧
    low12 (op ++ bits) = bits := by
  refine ⟨?_, ?_⟩
  · apply BitVec.eq_of_getLsbD_eq
    intro i hi
    simp only [opcodeField, BitVec.getLsbD_extractLsb', BitVec.getLsbD_append, hi]
    interval_cases i <;> simp
  · apply BitVec.eq_of_getLsbD_eq
    intro i hi
    simp only [low12, BitVec.getLsbD_extractLsb', BitVec.getLsbD_append, hi]
    interval_cases i <;> simp

/-! ### Fields and masks of any word (R67) -/

/-- Two words agree under a mask when they agree at every bit of the mask. -/
theorem masked_eq {a b m : Word} (h : ∀ i, i < 16 → m.getLsbD i = true → a.getLsbD i = b.getLsbD i) : a &&& m = b &&& m := by
  apply BitVec.eq_of_getLsbD_eq
  intro i hi
  rw [BitVec.getLsbD_and, BitVec.getLsbD_and]
  cases hm : m.getLsbD i with
  | false => simp
  | true => rw [h i hi hm]

/-- Words equal under a mask agree at every bit of the mask. -/
theorem getLsbD_of_masked {a b m : Word} (h : a &&& m = b &&& m) (i : Nat) (hm : m.getLsbD i = true) :
    a.getLsbD i = b.getLsbD i := by
  have := congrArg (·.getLsbD i) h
  simpa [BitVec.getLsbD_and, hm] using this

/-- A field is equal in two words when its bits are. -/
theorem field_eq {a b : Word} {lo n : Nat} (h : ∀ i, i < n → a.getLsbD (lo + i) = b.getLsbD (lo + i)) :
    a.extractLsb' lo n = b.extractLsb' lo n := by
  apply BitVec.eq_of_getLsbD_eq
  intro i hi
  simp only [BitVec.getLsbD_extractLsb', hi, decide_true, Bool.true_and]
  exact h i hi

/-- Every instruction's significant bits hold the opcode field. -/
theorem significantBits_opcode (j : Instr) (i : Nat) (hi : i < 4) : (significantBits j).getLsbD (12 + i) = true := by
  cases j <;> (simp only [significantBits]; interval_cases i <;> rfl)

end Sys2Proof
end

