-- ==== Sys2Proof/Laws/Memory.lean ====
section
/-! SUPPORT. The stored array: read after write, every other word left alone, and the canonical form kept
(20_memory.md R36, R39, R56). -/

namespace Sys2Proof.Machine

/-- Below the first address of a canonical memory nothing is listed. -/
theorem Memory.lookup_of_wfFrom {m : Memory} {lo a : Nat} (h : Memory.wfFrom lo m = true) (ha : a < lo) :
    Memory.lookup m a = Config.unwritten := by
  induction m generalizing lo with
  | nil => rfl
  | cons c m ih =>
    obtain ⟨k, v⟩ := c
    simp only [Memory.wfFrom, Bool.and_eq_true, decide_eq_true_eq] at h
    obtain ⟨⟨⟨hk, -⟩, -⟩, hm⟩ := h
    rw [Memory.lookup, if_neg (by omega)]
    exact ih hm (by omega)

/-- A smaller lower bound asks less. -/
theorem Memory.wfFrom_mono {m : Memory} {lo lo' : Nat} (h : Memory.wfFrom lo m = true) (hle : lo' ≤ lo) :
    Memory.wfFrom lo' m = true := by
  cases m with
  | nil => rfl
  | cons c m =>
    obtain ⟨k, v⟩ := c
    simp only [Memory.wfFrom, Bool.and_eq_true, decide_eq_true_eq] at h ⊢
    obtain ⟨⟨⟨hk, h1⟩, h2⟩, h3⟩ := h
    exact ⟨⟨⟨by omega, h1⟩, h2⟩, h3⟩

/-- A store is read back at its own address. -/
theorem Memory.lookup_store_same {m : Memory} {lo : Nat} (a : Nat) (v : Word) (h : Memory.wfFrom lo m = true) :
    Memory.lookup (Memory.store m a v) a = v := by
  induction m generalizing lo with
  | nil =>
    rw [Memory.store]
    split
    · next hv => rw [hv]; rfl
    · simp [Memory.lookup]
  | cons c m ih =>
    obtain ⟨k, w⟩ := c
    have hw := h
    simp only [Memory.wfFrom, Bool.and_eq_true, decide_eq_true_eq] at h
    obtain ⟨-, hm⟩ := h
    rw [Memory.store]
    split
    · next hlt =>
      split
      · next hv =>
        rw [hv, Memory.lookup, if_neg (by omega)]
        exact Memory.lookup_of_wfFrom hm (by omega)
      · simp [Memory.lookup]
    · split
      · next heq =>
        split
        · next hv => rw [hv]; exact Memory.lookup_of_wfFrom hm (by omega)
        · simp [Memory.lookup]
      · next hne => rw [Memory.lookup, if_neg (by omega)]; exact ih hm

/-- A store leaves every other address alone, in any memory. -/
theorem Memory.lookup_store_ne (m : Memory) {a b : Nat} (v : Word) (h : b ≠ a) :
    Memory.lookup (Memory.store m a v) b = Memory.lookup m b := by
  have hab : a ≠ b := fun e => h e.symm
  induction m with
  | nil =>
    rw [Memory.store]
    split
    · rfl
    · simp [Memory.lookup, hab]
  | cons c m ih =>
    obtain ⟨k, w⟩ := c
    rw [Memory.store]
    split
    · split
      · rfl
      · rw [Memory.lookup, if_neg hab]
    · split
      · next heq =>
        subst heq
        split
        · rw [Memory.lookup, if_neg hab]
        · rw [Memory.lookup, if_neg hab, Memory.lookup, if_neg hab]
      · rw [Memory.lookup, Memory.lookup, ih]

/-- A store at or above the lower bound, inside the address space, keeps the canonical form. -/
theorem Memory.store_wfFrom {m : Memory} {lo a : Nat} (v : Word) (h : Memory.wfFrom lo m = true) (hlo : lo ≤ a)
    (ha : a < Config.memWords) : Memory.wfFrom lo (Memory.store m a v) = true := by
  induction m generalizing lo with
  | nil =>
    rw [Memory.store]
    split
    · rfl
    · next hv => simp [Memory.wfFrom, hlo, ha, hv]
  | cons c m ih =>
    obtain ⟨k, w⟩ := c
    have hw := h
    simp only [Memory.wfFrom, Bool.and_eq_true, decide_eq_true_eq] at h
    obtain ⟨⟨⟨hk, hkm⟩, hwv⟩, hm⟩ := h
    rw [Memory.store]
    split
    · next hlt =>
      split
      · exact hw
      · next hv =>
        simp only [Memory.wfFrom, Bool.and_eq_true, decide_eq_true_eq]
        exact ⟨⟨⟨hlo, ha⟩, hv⟩, ⟨⟨⟨by omega, hkm⟩, hwv⟩, hm⟩⟩
    · split
      · next heq =>
        split
        · exact Memory.wfFrom_mono hm (by omega)
        · next hv =>
          subst heq
          simp only [Memory.wfFrom, Bool.and_eq_true, decide_eq_true_eq]
          exact ⟨⟨⟨hk, hkm⟩, hv⟩, hm⟩
      · next hne =>
        simp only [Memory.wfFrom, Bool.and_eq_true, decide_eq_true_eq]
        exact ⟨⟨⟨hk, hkm⟩, hwv⟩, ih hm (by omega)⟩

theorem Memory.wf_nil : Memory.wf [] = true := rfl

/-- Every write keeps the canonical form. -/
theorem Memory.write_wf {m : Memory} (a v : Word) (h : m.wf = true) : (m.write a v).wf = true :=
  Memory.store_wfFrom v h (Nat.zero_le _) a.isLt

/-- Read after write at the same address, in a canonical memory. -/
theorem Memory.read_write_same {m : Memory} (a v : Word) (h : m.wf = true) : (m.write a v).read a = v :=
  Memory.lookup_store_same _ v h

/-- A write leaves every other word alone. -/
theorem Memory.read_write_ne (m : Memory) {a b : Word} (v : Word) (h : b ≠ a) :
    (m.write a v).read b = m.read b :=
  Memory.lookup_store_ne m v fun e => h (BitVec.eq_of_toNat_eq e)

/-- Both laws at once. -/
theorem Memory.read_write {m : Memory} (a b v : Word) (h : m.wf = true) :
    (m.write a v).read b = if b = a then v else m.read b := by
  split
  · next e => rw [e, Memory.read_write_same a v h]
  · next e => exact Memory.read_write_ne m v e

/-- Memory with nothing listed reads as zero everywhere (R32). -/
@[simp] theorem Memory.read_nil (a : Word) : Memory.read [] a = 0x0000#16 := rfl

end Sys2Proof.Machine
end

