-- ==== Sys2Proof/Laws/State.lean ====
section
/-! SUPPORT. What each update of the state does to each field: one lemma per field per update, so that no later proof
unfolds a record update. Then the register file's read-after-write laws (10_state.md R14). -/

namespace Sys2Proof.Machine

variable (s : State)

/-! ### State.setReg (R14) -/

@[simp] theorem State.setReg_regs (r : Reg) (v : Word) : (s.setReg r v).regs = s.regs.set r v := rfl
@[simp] theorem State.setReg_pc (r : Reg) (v : Word) : (s.setReg r v).pc = s.pc := rfl
@[simp] theorem State.setReg_cond (r : Reg) (v : Word) : (s.setReg r v).cond = s.cond := rfl
@[simp] theorem State.setReg_run (r : Reg) (v : Word) : (s.setReg r v).run = s.run := rfl
@[simp] theorem State.setReg_mem (r : Reg) (v : Word) : (s.setReg r v).mem = s.mem := rfl
@[simp] theorem State.setReg_hold (r : Reg) (v : Word) : (s.setReg r v).hold = s.hold := rfl
@[simp] theorem State.setReg_keys (r : Reg) (v : Word) : (s.setReg r v).keys = s.keys := rfl
@[simp] theorem State.setReg_heldKey (r : Reg) (v : Word) : (s.setReg r v).heldKey = s.heldKey := rfl
@[simp] theorem State.setReg_cut (r : Reg) (v : Word) : (s.setReg r v).cut = s.cut := rfl
@[simp] theorem State.setReg_script (r : Reg) (v : Word) : (s.setReg r v).script = s.script := rfl
@[simp] theorem State.setReg_trace (r : Reg) (v : Word) : (s.setReg r v).trace = s.trace := rfl

/-! ### State.setPc (R17) -/

@[simp] theorem State.setPc_regs (v : Word) : (s.setPc v).regs = s.regs := rfl
@[simp] theorem State.setPc_pc (v : Word) : (s.setPc v).pc = v := rfl
@[simp] theorem State.setPc_cond (v : Word) : (s.setPc v).cond = s.cond := rfl
@[simp] theorem State.setPc_run (v : Word) : (s.setPc v).run = s.run := rfl
@[simp] theorem State.setPc_mem (v : Word) : (s.setPc v).mem = s.mem := rfl
@[simp] theorem State.setPc_hold (v : Word) : (s.setPc v).hold = s.hold := rfl
@[simp] theorem State.setPc_keys (v : Word) : (s.setPc v).keys = s.keys := rfl
@[simp] theorem State.setPc_heldKey (v : Word) : (s.setPc v).heldKey = s.heldKey := rfl
@[simp] theorem State.setPc_cut (v : Word) : (s.setPc v).cut = s.cut := rfl
@[simp] theorem State.setPc_script (v : Word) : (s.setPc v).script = s.script := rfl
@[simp] theorem State.setPc_trace (v : Word) : (s.setPc v).trace = s.trace := rfl
@[simp] theorem State.setPc_reg (v : Word) (q : Reg) : (s.setPc v).reg q = s.reg q := rfl

/-! ### State.setCond (R21) -/

@[simp] theorem State.setCond_regs (c : Cond) : (s.setCond c).regs = s.regs := rfl
@[simp] theorem State.setCond_pc (c : Cond) : (s.setCond c).pc = s.pc := rfl
@[simp] theorem State.setCond_cond (c : Cond) : (s.setCond c).cond = c := rfl
@[simp] theorem State.setCond_run (c : Cond) : (s.setCond c).run = s.run := rfl
@[simp] theorem State.setCond_mem (c : Cond) : (s.setCond c).mem = s.mem := rfl
@[simp] theorem State.setCond_hold (c : Cond) : (s.setCond c).hold = s.hold := rfl
@[simp] theorem State.setCond_keys (c : Cond) : (s.setCond c).keys = s.keys := rfl
@[simp] theorem State.setCond_heldKey (c : Cond) : (s.setCond c).heldKey = s.heldKey := rfl
@[simp] theorem State.setCond_cut (c : Cond) : (s.setCond c).cut = s.cut := rfl
@[simp] theorem State.setCond_script (c : Cond) : (s.setCond c).script = s.script := rfl
@[simp] theorem State.setCond_trace (c : Cond) : (s.setCond c).trace = s.trace := rfl
@[simp] theorem State.setCond_reg (c : Cond) (q : Reg) : (s.setCond c).reg q = s.reg q := rfl

/-! ### State.setHalted (R26) -/

@[simp] theorem State.setHalted_regs : s.setHalted.regs = s.regs := rfl
@[simp] theorem State.setHalted_pc : s.setHalted.pc = s.pc := rfl
@[simp] theorem State.setHalted_cond : s.setHalted.cond = s.cond := rfl
@[simp] theorem State.setHalted_run : s.setHalted.run = .halted := rfl
@[simp] theorem State.setHalted_mem : s.setHalted.mem = s.mem := rfl
@[simp] theorem State.setHalted_hold : s.setHalted.hold = s.hold := rfl
@[simp] theorem State.setHalted_keys : s.setHalted.keys = s.keys := rfl
@[simp] theorem State.setHalted_heldKey : s.setHalted.heldKey = s.heldKey := rfl
@[simp] theorem State.setHalted_cut : s.setHalted.cut = s.cut := rfl
@[simp] theorem State.setHalted_script : s.setHalted.script = s.script := rfl
@[simp] theorem State.setHalted_trace : s.setHalted.trace = s.trace := rfl
@[simp] theorem State.setHalted_reg (q : Reg) : s.setHalted.reg q = s.reg q := rfl

/-! ### State.memWrite (R39) -/

@[simp] theorem State.memWrite_regs (a v : Word) : (s.memWrite a v).regs = s.regs := rfl
@[simp] theorem State.memWrite_pc (a v : Word) : (s.memWrite a v).pc = s.pc := rfl
@[simp] theorem State.memWrite_cond (a v : Word) : (s.memWrite a v).cond = s.cond := rfl
@[simp] theorem State.memWrite_run (a v : Word) : (s.memWrite a v).run = s.run := rfl
@[simp] theorem State.memWrite_mem (a v : Word) : (s.memWrite a v).mem = s.mem.write a v := rfl
@[simp] theorem State.memWrite_hold (a v : Word) : (s.memWrite a v).hold = s.hold := rfl
@[simp] theorem State.memWrite_keys (a v : Word) : (s.memWrite a v).keys = s.keys := rfl
@[simp] theorem State.memWrite_heldKey (a v : Word) : (s.memWrite a v).heldKey = s.heldKey := rfl
@[simp] theorem State.memWrite_cut (a v : Word) : (s.memWrite a v).cut = s.cut := rfl
@[simp] theorem State.memWrite_script (a v : Word) : (s.memWrite a v).script = s.script := rfl
@[simp] theorem State.memWrite_trace (a v : Word) : (s.memWrite a v).trace = s.trace := rfl
@[simp] theorem State.memWrite_reg (a v : Word) (q : Reg) : (s.memWrite a v).reg q = s.reg q := rfl

/-! ### State.setHold (R125) -/

@[simp] theorem State.setHold_regs (h : Option TrapHold) : (s.setHold h).regs = s.regs := rfl
@[simp] theorem State.setHold_pc (h : Option TrapHold) : (s.setHold h).pc = s.pc := rfl
@[simp] theorem State.setHold_cond (h : Option TrapHold) : (s.setHold h).cond = s.cond := rfl
@[simp] theorem State.setHold_run (h : Option TrapHold) : (s.setHold h).run = s.run := rfl
@[simp] theorem State.setHold_mem (h : Option TrapHold) : (s.setHold h).mem = s.mem := rfl
@[simp] theorem State.setHold_hold (h : Option TrapHold) : (s.setHold h).hold = h := rfl
@[simp] theorem State.setHold_keys (h : Option TrapHold) : (s.setHold h).keys = s.keys := rfl
@[simp] theorem State.setHold_heldKey (h : Option TrapHold) : (s.setHold h).heldKey = s.heldKey := rfl
@[simp] theorem State.setHold_cut (h : Option TrapHold) : (s.setHold h).cut = s.cut := rfl
@[simp] theorem State.setHold_script (h : Option TrapHold) : (s.setHold h).script = s.script := rfl
@[simp] theorem State.setHold_trace (h : Option TrapHold) : (s.setHold h).trace = s.trace := rfl
@[simp] theorem State.setHold_reg (h : Option TrapHold) (q : Reg) : (s.setHold h).reg q = s.reg q := rfl

/-! ### State.setKeys (R31) -/

@[simp] theorem State.setKeys_regs (ks : List Word) : (s.setKeys ks).regs = s.regs := rfl
@[simp] theorem State.setKeys_pc (ks : List Word) : (s.setKeys ks).pc = s.pc := rfl
@[simp] theorem State.setKeys_cond (ks : List Word) : (s.setKeys ks).cond = s.cond := rfl
@[simp] theorem State.setKeys_run (ks : List Word) : (s.setKeys ks).run = s.run := rfl
@[simp] theorem State.setKeys_mem (ks : List Word) : (s.setKeys ks).mem = s.mem := rfl
@[simp] theorem State.setKeys_hold (ks : List Word) : (s.setKeys ks).hold = s.hold := rfl
@[simp] theorem State.setKeys_keys (ks : List Word) : (s.setKeys ks).keys = ks := rfl
@[simp] theorem State.setKeys_heldKey (ks : List Word) : (s.setKeys ks).heldKey = s.heldKey := rfl
@[simp] theorem State.setKeys_cut (ks : List Word) : (s.setKeys ks).cut = s.cut := rfl
@[simp] theorem State.setKeys_script (ks : List Word) : (s.setKeys ks).script = s.script := rfl
@[simp] theorem State.setKeys_trace (ks : List Word) : (s.setKeys ks).trace = s.trace := rfl
@[simp] theorem State.setKeys_reg (ks : List Word) (q : Reg) : (s.setKeys ks).reg q = s.reg q := rfl

/-! ### State.setHeldKey (R172) -/

@[simp] theorem State.setHeldKey_regs (k : Option Word) : (s.setHeldKey k).regs = s.regs := rfl
@[simp] theorem State.setHeldKey_pc (k : Option Word) : (s.setHeldKey k).pc = s.pc := rfl
@[simp] theorem State.setHeldKey_cond (k : Option Word) : (s.setHeldKey k).cond = s.cond := rfl
@[simp] theorem State.setHeldKey_run (k : Option Word) : (s.setHeldKey k).run = s.run := rfl
@[simp] theorem State.setHeldKey_mem (k : Option Word) : (s.setHeldKey k).mem = s.mem := rfl
@[simp] theorem State.setHeldKey_hold (k : Option Word) : (s.setHeldKey k).hold = s.hold := rfl
@[simp] theorem State.setHeldKey_keys (k : Option Word) : (s.setHeldKey k).keys = s.keys := rfl
@[simp] theorem State.setHeldKey_heldKey (k : Option Word) : (s.setHeldKey k).heldKey = k := rfl
@[simp] theorem State.setHeldKey_cut (k : Option Word) : (s.setHeldKey k).cut = s.cut := rfl
@[simp] theorem State.setHeldKey_script (k : Option Word) : (s.setHeldKey k).script = s.script := rfl
@[simp] theorem State.setHeldKey_trace (k : Option Word) : (s.setHeldKey k).trace = s.trace := rfl
@[simp] theorem State.setHeldKey_reg (k : Option Word) (q : Reg) : (s.setHeldKey k).reg q = s.reg q := rfl

/-! ### State.setScript (R172) -/

@[simp] theorem State.setScript_regs (ts : List (List EnvAction)) : (s.setScript ts).regs = s.regs := rfl
@[simp] theorem State.setScript_pc (ts : List (List EnvAction)) : (s.setScript ts).pc = s.pc := rfl
@[simp] theorem State.setScript_cond (ts : List (List EnvAction)) : (s.setScript ts).cond = s.cond := rfl
@[simp] theorem State.setScript_run (ts : List (List EnvAction)) : (s.setScript ts).run = s.run := rfl
@[simp] theorem State.setScript_mem (ts : List (List EnvAction)) : (s.setScript ts).mem = s.mem := rfl
@[simp] theorem State.setScript_hold (ts : List (List EnvAction)) : (s.setScript ts).hold = s.hold := rfl
@[simp] theorem State.setScript_keys (ts : List (List EnvAction)) : (s.setScript ts).keys = s.keys := rfl
@[simp] theorem State.setScript_heldKey (ts : List (List EnvAction)) : (s.setScript ts).heldKey = s.heldKey := rfl
@[simp] theorem State.setScript_cut (ts : List (List EnvAction)) : (s.setScript ts).cut = s.cut := rfl
@[simp] theorem State.setScript_script (ts : List (List EnvAction)) : (s.setScript ts).script = ts := rfl
@[simp] theorem State.setScript_trace (ts : List (List EnvAction)) : (s.setScript ts).trace = s.trace := rfl
@[simp] theorem State.setScript_reg (ts : List (List EnvAction)) (q : Reg) : (s.setScript ts).reg q = s.reg q := rfl

/-! ### State.setCut (R163) -/

@[simp] theorem State.setCut_regs (n : Option Nat) : (s.setCut n).regs = s.regs := rfl
@[simp] theorem State.setCut_pc (n : Option Nat) : (s.setCut n).pc = s.pc := rfl
@[simp] theorem State.setCut_cond (n : Option Nat) : (s.setCut n).cond = s.cond := rfl
@[simp] theorem State.setCut_run (n : Option Nat) : (s.setCut n).run = s.run := rfl
@[simp] theorem State.setCut_mem (n : Option Nat) : (s.setCut n).mem = s.mem := rfl
@[simp] theorem State.setCut_hold (n : Option Nat) : (s.setCut n).hold = s.hold := rfl
@[simp] theorem State.setCut_heldKey (n : Option Nat) : (s.setCut n).heldKey = s.heldKey := rfl
@[simp] theorem State.setCut_keys (n : Option Nat) : (s.setCut n).keys = s.keys := rfl
@[simp] theorem State.setCut_script (n : Option Nat) : (s.setCut n).script = s.script := rfl
@[simp] theorem State.setCut_trace (n : Option Nat) : (s.setCut n).trace = s.trace := rfl
@[simp] theorem State.setCut_cut (n : Option Nat) : (s.setCut n).cut = n := rfl
@[simp] theorem State.setCut_reg (n : Option Nat) (q : Reg) : (s.setCut n).reg q = s.reg q := rfl

/-- Clearing a cut that is not there changes nothing. -/
theorem State.setCut_none {s : State} (h : s.cut = none) : s.setCut none = s := by
  cases s; cases h; rfl

/-- Finishing a routine that is not unfinished changes nothing. -/
theorem State.setHold_none {s : State} (h : s.hold = none) : s.setHold none = s := by
  cases s; cases h; rfl

@[simp] theorem State.setHold_setHold (h h' : Option TrapHold) : (s.setHold h).setHold h' = s.setHold h' := rfl

theorem State.allowed_none {s : State} (h : s.cut = none) (full : Nat) : s.allowed full = full := by
  unfold State.allowed; rw [h]

theorem State.allowed_some {s : State} {n : Nat} (h : s.cut = some n) (full : Nat) : s.allowed full = n := by
  unfold State.allowed; rw [h]

/-! ### State.emit (R57) -/

@[simp] theorem State.emit_regs (e : Event) : (s.emit e).regs = s.regs := rfl
@[simp] theorem State.emit_pc (e : Event) : (s.emit e).pc = s.pc := rfl
@[simp] theorem State.emit_cond (e : Event) : (s.emit e).cond = s.cond := rfl
@[simp] theorem State.emit_run (e : Event) : (s.emit e).run = s.run := rfl
@[simp] theorem State.emit_mem (e : Event) : (s.emit e).mem = s.mem := rfl
@[simp] theorem State.emit_hold (e : Event) : (s.emit e).hold = s.hold := rfl
@[simp] theorem State.emit_keys (e : Event) : (s.emit e).keys = s.keys := rfl
@[simp] theorem State.emit_heldKey (e : Event) : (s.emit e).heldKey = s.heldKey := rfl
@[simp] theorem State.emit_cut (e : Event) : (s.emit e).cut = s.cut := rfl
@[simp] theorem State.emit_script (e : Event) : (s.emit e).script = s.script := rfl
@[simp] theorem State.emit_trace (e : Event) : (s.emit e).trace = s.trace ++ [e] := rfl
@[simp] theorem State.emit_reg (e : Event) (q : Reg) : (s.emit e).reg q = s.reg q := rfl

/-! ### Registers: read after write (R14) -/

@[simp] theorem RegFile.get_set_same (f : RegFile) (r : Reg) (v : Word) : (f.set r v).get r = v := by
  cases r <;> rfl

theorem RegFile.get_set_ne (f : RegFile) {r q : Reg} (v : Word) (h : q ≠ r) : (f.set r v).get q = f.get q := by
  cases r <;> cases q <;> first | rfl | exact absurd rfl h

@[simp] theorem State.setReg_reg_same (r : Reg) (v : Word) : (s.setReg r v).reg r = v := RegFile.get_set_same _ _ _

theorem State.setReg_reg_ne {r q : Reg} (v : Word) (h : q ≠ r) : (s.setReg r v).reg q = s.reg q :=
  RegFile.get_set_ne _ _ h

theorem State.setReg_reg (r q : Reg) (v : Word) : (s.setReg r v).reg q = if q = r then v else s.reg q := by
  split
  · next h => rw [h, s.setReg_reg_same]
  · next h => exact s.setReg_reg_ne v h

/-- Two register files are equal when every register reads the same. -/
theorem RegFile.ext_get {f g : RegFile} (h : ∀ r, f.get r = g.get r) : f = g := by
  cases f; cases g
  simp only [RegFile.mk.injEq]
  exact ⟨h .r0, h .r1, h .r2, h .r3, h .r4, h .r5, h .r6, h .r7⟩

end Sys2Proof.Machine
end

