-- ==== Sys2Proof/Laws/Ops.lean ====
section
/-! SUPPORT. What each shared operation can do, said once: the console, the MemoryBus, the flags, trap entry. -/

namespace Sys2Proof.Machine

variable (s : State)

/-! ### Flags (R22, R23) -/

theorem flagIs_flagOf (v : Word) : FlagIs (flagOf v) v := by
  have hb : v.getLsbD 15 = decide (0x8000 ≤ v.toNat) := by
    rw [BitVec.getLsbD, Nat.testBit_eq_decide_div_mod_eq]
    have := v.isLt
    exact decide_eq_decide.mpr (by omega)
  unfold flagOf FlagIs
  rw [hb]
  have hz : v = 0x0000#16 ↔ v.toNat = 0 := by
    constructor
    · intro h; rw [h]; rfl
    · intro h; exact BitVec.eq_of_toNat_eq h
  by_cases h : 0x8000 ≤ v.toNat
  · simp [h]; omega
  · by_cases h' : v = 0x0000#16
    · simp [h']
    · have := mt hz.mpr h'
      simp [h, h']; omega

theorem flagOf_ne_none (v : Word) : flagOf v ≠ .none := by
  unfold flagOf; repeat' split <;> simp

/-- A flag of a value is that value's `flagOf`. -/
theorem FlagIs.eq_flagOf {c : Cond} {v : Word} (h : FlagIs c v) : c = flagOf v := by
  have h' := flagIs_flagOf v
  obtain ⟨a, b, d⟩ := h
  obtain ⟨a', b', d'⟩ := h'
  have hv := v.isLt
  rcases Nat.lt_or_ge v.toNat 0x8000 with h1 | h1
  · rcases Nat.eq_zero_or_pos v.toNat with h2 | h2
    · rw [b.mpr h2, b'.mpr h2]
    · rw [d.mpr ⟨h2, h1⟩, d'.mpr ⟨h2, h1⟩]
  · rw [a.mpr h1, a'.mpr h1]

@[simp] theorem setcc_cond (r : Reg) : (setcc r s).cond = flagOf (s.reg r) := rfl
@[simp] theorem setcc_reg (r q : Reg) : (setcc r s).reg q = s.reg q := rfl
@[simp] theorem setcc_regs (r : Reg) : (setcc r s).regs = s.regs := rfl
@[simp] theorem setcc_pc (r : Reg) : (setcc r s).pc = s.pc := rfl
@[simp] theorem setcc_run (r : Reg) : (setcc r s).run = s.run := rfl
@[simp] theorem setcc_mem (r : Reg) : (setcc r s).mem = s.mem := rfl
@[simp] theorem setcc_hold (r : Reg) : (setcc r s).hold = s.hold := rfl
@[simp] theorem setcc_keys (r : Reg) : (setcc r s).keys = s.keys := rfl
@[simp] theorem setcc_heldKey (r : Reg) : (setcc r s).heldKey = s.heldKey := rfl
@[simp] theorem setcc_cut (r : Reg) : (setcc r s).cut = s.cut := rfl
@[simp] theorem setcc_script (r : Reg) : (setcc r s).script = s.script := rfl
@[simp] theorem setcc_trace (r : Reg) : (setcc r s).trace = s.trace := rfl

@[simp] theorem setRegCc_cond (r : Reg) (v : Word) : (setRegCc r v s).cond = flagOf v := by simp [setRegCc]
@[simp] theorem setRegCc_regs (r : Reg) (v : Word) : (setRegCc r v s).regs = s.regs.set r v := rfl
@[simp] theorem setRegCc_pc (r : Reg) (v : Word) : (setRegCc r v s).pc = s.pc := rfl
@[simp] theorem setRegCc_run (r : Reg) (v : Word) : (setRegCc r v s).run = s.run := rfl
@[simp] theorem setRegCc_mem (r : Reg) (v : Word) : (setRegCc r v s).mem = s.mem := rfl
@[simp] theorem setRegCc_hold (r : Reg) (v : Word) : (setRegCc r v s).hold = s.hold := rfl
@[simp] theorem setRegCc_keys (r : Reg) (v : Word) : (setRegCc r v s).keys = s.keys := rfl
@[simp] theorem setRegCc_heldKey (r : Reg) (v : Word) : (setRegCc r v s).heldKey = s.heldKey := rfl
@[simp] theorem setRegCc_cut (r : Reg) (v : Word) : (setRegCc r v s).cut = s.cut := rfl
@[simp] theorem setRegCc_script (r : Reg) (v : Word) : (setRegCc r v s).script = s.script := rfl
@[simp] theorem setRegCc_trace (r : Reg) (v : Word) : (setRegCc r v s).trace = s.trace := rfl
@[simp] theorem setRegCc_reg_same (r : Reg) (v : Word) : (setRegCc r v s).reg r = v := State.setReg_reg_same ..

theorem setRegCc_reg (r q : Reg) (v : Word) : (setRegCc r v s).reg q = if q = r then v else s.reg q :=
  State.setReg_reg ..

/-- Writing a destination register with its flags changes that register, COND, and nothing else (R23). -/
theorem setRegCc_writesDest (r : Reg) (v : Word) : WritesDest r v s (setRegCc r v s) := by
  refine ⟨setRegCc_reg_same .., ?_, ?_, rfl, fun _ _ => rfl, ⟨rfl, rfl, rfl⟩, ⟨rfl, rfl, rfl, rfl⟩⟩
  · rw [setRegCc_cond]; exact flagIs_flagOf v
  · intro q hq
    rw [setRegCc_reg, if_neg (by simpa using hq)]

/-! ### Trap entry (R115, R148) -/

@[simp] theorem trapEntry_regs : (trapEntry s).regs = s.regs.set .r7 s.pc := rfl
@[simp] theorem trapEntry_pc : (trapEntry s).pc = s.pc := rfl
@[simp] theorem trapEntry_cond : (trapEntry s).cond = s.cond := rfl
@[simp] theorem trapEntry_run : (trapEntry s).run = s.run := rfl
@[simp] theorem trapEntry_mem : (trapEntry s).mem = s.mem := rfl
@[simp] theorem trapEntry_hold : (trapEntry s).hold = s.hold := rfl
@[simp] theorem trapEntry_keys : (trapEntry s).keys = s.keys := rfl
@[simp] theorem trapEntry_heldKey : (trapEntry s).heldKey = s.heldKey := rfl
@[simp] theorem trapEntry_cut : (trapEntry s).cut = s.cut := rfl
@[simp] theorem trapEntry_script : (trapEntry s).script = s.script := rfl
@[simp] theorem trapEntry_trace : (trapEntry s).trace = s.trace := rfl
@[simp] theorem trapEntry_r7 : (trapEntry s).reg .r7 = s.pc := State.setReg_reg_same ..

theorem trapEntry_reg {q : Reg} (h : q ≠ .r7) : (trapEntry s).reg q = s.reg q := State.setReg_reg_ne _ _ h

/-! ### The console (R9) -/

theorem takeKey_next {k : Word} {rest : List Word} (h : NextKey k rest s) :
    takeKey s = some (k, s.setKeys rest) := by
  unfold takeKey
  rcases h with h | ⟨h1, h2, h3⟩
  · rw [h]
  · rw [h1, h2]
    subst h3
    show some (k, s) = some (k, { s with keys := [] })
    rw [← h1]

theorem takeKey_noKey (h : NoKey s) : takeKey s = none := by
  unfold takeKey; rw [h.1, h.2]

/-- The console has a next key, or none: the two cases of every poll and every key read. -/
theorem nextKey_or_noKey : (∃ k rest, NextKey k rest s) ∨ NoKey s := by
  rcases hk : s.keys with - | ⟨k, rest⟩
  · rcases hh : s.heldKey with - | k
    · exact .inr ⟨hk, hh⟩
    · exact .inl ⟨k, [], .inr ⟨hk, hh, rfl⟩⟩
  · exact .inl ⟨k, rest, .inl hk⟩

/-- The pending keys before a key is taken are that key, if it came from the FIFO, and the rest. -/
theorem NextKey.keys_eq {s : State} {k : Word} {rest : List Word} (h : NextKey k rest s) :
    ∃ taken, s.keys = taken ++ rest := by
  rcases h with h | ⟨h, -, rfl⟩
  · exact ⟨[k], h⟩
  · exact ⟨[], h⟩

theorem writeChars_eq (ws : List Word) : writeChars ws s = { s with trace := s.trace ++ ws.map .writeChar } := by
  induction ws generalizing s with
  | nil => simp [writeChars]
  | cons w ws ih => rw [writeChars, ih]; simp [writeChar, State.emit]

@[simp] theorem writeChars_regs (ws : List Word) : (writeChars ws s).regs = s.regs := by rw [writeChars_eq]
@[simp] theorem writeChars_reg (ws : List Word) (q : Reg) : (writeChars ws s).reg q = s.reg q := by
  rw [writeChars_eq]; rfl
@[simp] theorem writeChars_pc (ws : List Word) : (writeChars ws s).pc = s.pc := by rw [writeChars_eq]
@[simp] theorem writeChars_cond (ws : List Word) : (writeChars ws s).cond = s.cond := by rw [writeChars_eq]
@[simp] theorem writeChars_run (ws : List Word) : (writeChars ws s).run = s.run := by rw [writeChars_eq]
@[simp] theorem writeChars_mem (ws : List Word) : (writeChars ws s).mem = s.mem := by rw [writeChars_eq]
@[simp] theorem writeChars_hold (ws : List Word) : (writeChars ws s).hold = s.hold := by rw [writeChars_eq]
@[simp] theorem writeChars_keys (ws : List Word) : (writeChars ws s).keys = s.keys := by rw [writeChars_eq]
@[simp] theorem writeChars_heldKey (ws : List Word) : (writeChars ws s).heldKey = s.heldKey := by rw [writeChars_eq]
@[simp] theorem writeChars_cut (ws : List Word) : (writeChars ws s).cut = s.cut := by rw [writeChars_eq]
@[simp] theorem writeChars_script (ws : List Word) : (writeChars ws s).script = s.script := by rw [writeChars_eq]
@[simp] theorem writeChars_trace (ws : List Word) : (writeChars ws s).trace = s.trace ++ ws.map .writeChar := by
  rw [writeChars_eq]

/-! ### The MemoryBus (R38, R40) -/

/-- The state a KBSR read leaves when the console gives `k` and keeps `rest`. -/
theorem pollStatus_next {k : Word} {rest : List Word} (h : NextKey k rest s) :
    pollStatus s = ((((s.setKeys rest).emit (.pollKey (some k))).memWrite Config.kbsr Config.kbsrReady).memWrite
      Config.kbdr k) := by
  unfold pollStatus pollKey; rw [takeKey_next s h]

/-- The state a KBSR read leaves when the console has no key. -/
theorem pollStatus_noKey (h : NoKey s) :
    pollStatus s = (s.emit (.pollKey none)).memWrite Config.kbsr 0x0000#16 := by
  unfold pollStatus pollKey; rw [takeKey_noKey s h]

/-- A read of any address but KBSR is a plain array read. -/
theorem memRead_plain {a : Word} (h : a ≠ Config.kbsr) : memRead a s = (s.mem.read a, s) := by
  simp [memRead, beforeRead, h]

theorem memRead_status : memRead Config.kbsr s = ((pollStatus s).mem.read Config.kbsr, pollStatus s) := by
  simp [memRead, beforeRead]

/-- The state after a bus read: the state itself, or the state after a poll that found a key, or after one that did not. -/
theorem memRead_cases (a : Word) :
    (a ≠ Config.kbsr ∧ (memRead a s).2 = s) ∨
    (a = Config.kbsr ∧ ∃ k rest, NextKey k rest s ∧ (memRead a s).2 =
      ((((s.setKeys rest).emit (.pollKey (some k))).memWrite Config.kbsr Config.kbsrReady).memWrite Config.kbdr k)) ∨
    (a = Config.kbsr ∧ NoKey s ∧
      (memRead a s).2 = (s.emit (.pollKey none)).memWrite Config.kbsr 0x0000#16) := by
  by_cases ha : a = Config.kbsr
  · subst ha
    rw [memRead_status]
    rcases nextKey_or_noKey s with ⟨k, rest, h⟩ | h
    · exact .inr (.inl ⟨rfl, k, rest, h, pollStatus_next s h⟩)
    · exact .inr (.inr ⟨rfl, h, pollStatus_noKey s h⟩)
  · rw [memRead_plain s ha]; exact .inl ⟨ha, rfl⟩

/-- Every bus read answers with the word that memory holds after it (R38). -/
theorem memRead_fst (a : Word) : (memRead a s).1 = (memRead a s).2.mem.read a := rfl

@[simp] theorem memRead_regs (a : Word) : (memRead a s).2.regs = s.regs := by
  rcases memRead_cases s a with ⟨-, h⟩ | ⟨-, k, rest, -, h⟩ | ⟨-, -, h⟩ <;> rw [h] <;> rfl
@[simp] theorem memRead_reg (a : Word) (q : Reg) : (memRead a s).2.reg q = s.reg q := by
  simp [State.reg]
@[simp] theorem memRead_pc (a : Word) : (memRead a s).2.pc = s.pc := by
  rcases memRead_cases s a with ⟨-, h⟩ | ⟨-, k, rest, -, h⟩ | ⟨-, -, h⟩ <;> rw [h] <;> rfl
@[simp] theorem memRead_cond (a : Word) : (memRead a s).2.cond = s.cond := by
  rcases memRead_cases s a with ⟨-, h⟩ | ⟨-, k, rest, -, h⟩ | ⟨-, -, h⟩ <;> rw [h] <;> rfl
@[simp] theorem memRead_run (a : Word) : (memRead a s).2.run = s.run := by
  rcases memRead_cases s a with ⟨-, h⟩ | ⟨-, k, rest, -, h⟩ | ⟨-, -, h⟩ <;> rw [h] <;> rfl
@[simp] theorem memRead_hold (a : Word) : (memRead a s).2.hold = s.hold := by
  rcases memRead_cases s a with ⟨-, h⟩ | ⟨-, k, rest, -, h⟩ | ⟨-, -, h⟩ <;> rw [h] <;> rfl
@[simp] theorem memRead_heldKey (a : Word) : (memRead a s).2.heldKey = s.heldKey := by
  rcases memRead_cases s a with ⟨-, h⟩ | ⟨-, k, rest, -, h⟩ | ⟨-, -, h⟩ <;> rw [h] <;> rfl
@[simp] theorem memRead_cut (a : Word) : (memRead a s).2.cut = s.cut := by
  rcases memRead_cases s a with ⟨-, h⟩ | ⟨-, k, rest, -, h⟩ | ⟨-, -, h⟩ <;> rw [h] <;> rfl
@[simp] theorem memRead_script (a : Word) : (memRead a s).2.script = s.script := by
  rcases memRead_cases s a with ⟨-, h⟩ | ⟨-, k, rest, -, h⟩ | ⟨-, -, h⟩ <;> rw [h] <;> rfl

/-- A bus read keeps memory canonical. -/
theorem memRead_wf (a : Word) (h : s.mem.wf = true) : (memRead a s).2.mem.wf = true := by
  rcases memRead_cases s a with ⟨-, e⟩ | ⟨-, k, rest, -, e⟩ | ⟨-, -, e⟩ <;> rw [e]
  · exact h
  · exact Memory.write_wf _ _ (Memory.write_wf _ _ h)
  · exact Memory.write_wf _ _ h

/-- A bus read leaves every word but KBSR and KBDR alone. -/
theorem memRead_keeps (a : Word) : MemKept [Config.kbsr, Config.kbdr] s (memRead a s).2 := by
  intro b hb
  have h1 : b ≠ Config.kbsr := fun e => hb (by simp [e])
  have h2 : b ≠ Config.kbdr := fun e => hb (by simp [e])
  rcases memRead_cases s a with ⟨-, e⟩ | ⟨-, k, rest, -, e⟩ | ⟨-, -, e⟩ <;> rw [e]
  · exact (Memory.read_write_ne _ _ h2).trans (Memory.read_write_ne _ _ h1)
  · exact Memory.read_write_ne _ _ h1

/-- A bus read adds at most one poll to the record. -/
theorem memRead_trace (a : Word) :
    (memRead a s).2.trace = s.trace ∨ ∃ k, (memRead a s).2.trace = s.trace ++ [.pollKey k] := by
  rcases memRead_cases s a with ⟨-, e⟩ | ⟨-, k, rest, -, e⟩ | ⟨-, -, e⟩ <;> rw [e]
  · exact .inl rfl
  · exact .inr ⟨some k, rfl⟩
  · exact .inr ⟨none, rfl⟩

/-- A bus read takes pending keys from the front only. -/
theorem memRead_keys (a : Word) : ∃ taken, s.keys = taken ++ (memRead a s).2.keys := by
  rcases memRead_cases s a with ⟨-, e⟩ | ⟨-, k, rest, h, e⟩ | ⟨-, -, e⟩ <;> rw [e]
  · exact ⟨[], rfl⟩
  · exact h.keys_eq
  · exact ⟨[], rfl⟩

/-- A KBSR read that finds a key answers 0x8000 and leaves the key's code in KBDR (R40). -/
theorem memRead_status_next {s : State} {k : Word} {rest : List Word} (w : s.mem.wf = true) (h : NextKey k rest s) :
    (memRead Config.kbsr s).1 = 0x8000#16 ∧ (memRead Config.kbsr s).2.mem.read Config.kbdr = k ∧
    (memRead Config.kbsr s).2.keys = rest ∧ (memRead Config.kbsr s).2.trace = s.trace ++ [.pollKey (some k)] := by
  rw [memRead_status, pollStatus_next s h]
  refine ⟨?_, ?_, rfl, rfl⟩
  · exact (Memory.read_write_ne _ _ (by decide)).trans (Memory.read_write_same _ _ w)
  · exact Memory.read_write_same _ _ (Memory.write_wf _ _ w)

/-- A KBSR read that finds no key answers 0 and leaves KBDR (R40). -/
theorem memRead_status_noKey {s : State} (w : s.mem.wf = true) (h : NoKey s) :
    (memRead Config.kbsr s).1 = 0x0000#16 ∧ (memRead Config.kbsr s).2.mem.read Config.kbdr = s.mem.read Config.kbdr ∧
    (memRead Config.kbsr s).2.keys = s.keys ∧ (memRead Config.kbsr s).2.trace = s.trace ++ [.pollKey none] := by
  rw [memRead_status, pollStatus_noKey s h]
  exact ⟨Memory.read_write_same _ _ w, Memory.read_write_ne _ _ (by decide), rfl, rfl⟩

end Sys2Proof.Machine
end

