-- ==== Sys2Proof/Laws/Trap.lean ====
section
/-! SUPPORT. What the trap routines can do: the bus frame (all that bus reads and character writes may change), the
string loop, the key reads, and the trap instructions as a whole. -/

namespace Sys2Proof.Machine

/-- All that any sequence of bus reads and character writes, and a string routine made of them, may change: KBSR, KBDR,
the pending keys, the record, and the rest left in `hold`; and memory only where a poll is recorded. -/
structure BusFrame (s t : State) : Prop where
  regs    : t.regs = s.regs
  pc      : t.pc = s.pc
  cond    : t.cond = s.cond
  run     : t.run = s.run
  cut     : t.cut = s.cut
  heldKey : t.heldKey = s.heldKey
  script  : t.script = s.script
  mem     : MemKept [Config.kbsr, Config.kbdr] s t
  wf      : s.mem.wf = true → t.mem.wf = true
  keys    : ∃ taken, s.keys = taken ++ t.keys
  trace   : ∃ ev, t.trace = s.trace ++ ev ∧ ((∀ k, Event.pollKey k ∉ ev) → t.mem = s.mem)

theorem BusFrame.refl (s : State) : BusFrame s s :=
  ⟨rfl, rfl, rfl, rfl, rfl, rfl, rfl, fun _ _ => rfl, id, ⟨[], rfl⟩, ⟨[], by simp, fun _ => rfl⟩⟩

theorem BusFrame.trans {s t u : State} (h : BusFrame s t) (g : BusFrame t u) : BusFrame s u where
  regs    := g.regs.trans h.regs
  pc      := g.pc.trans h.pc
  cond    := g.cond.trans h.cond
  run     := g.run.trans h.run
  cut     := g.cut.trans h.cut
  heldKey := g.heldKey.trans h.heldKey
  script  := g.script.trans h.script
  mem     := fun a ha => (g.mem a ha).trans (h.mem a ha)
  wf      := fun w => g.wf (h.wf w)
  keys    := by
    obtain ⟨x, hx⟩ := h.keys
    obtain ⟨y, hy⟩ := g.keys
    exact ⟨x ++ y, by rw [hx, hy, List.append_assoc]⟩
  trace   := by
    obtain ⟨x, hx, mx⟩ := h.trace
    obtain ⟨y, hy, my⟩ := g.trace
    refine ⟨x ++ y, by rw [hy, hx, List.append_assoc], fun hk => ?_⟩
    rw [my fun k hm => hk k (List.mem_append_right _ hm), mx fun k hm => hk k (List.mem_append_left _ hm)]

theorem BusFrame.reg {s t : State} (h : BusFrame s t) (q : Reg) : t.reg q = s.reg q := by
  simp [State.reg, h.regs]

theorem memRead_busFrame (a : Word) (s : State) : BusFrame s (memRead a s).2 where
  regs    := memRead_regs s a
  pc      := memRead_pc s a
  cond    := memRead_cond s a
  run     := memRead_run s a
  cut     := memRead_cut s a
  heldKey := memRead_heldKey s a
  script  := memRead_script s a
  mem     := memRead_keeps s a
  wf      := memRead_wf s a
  keys    := memRead_keys s a
  trace   := by
    rcases memRead_cases s a with ⟨-, e⟩ | ⟨-, k, rest, -, e⟩ | ⟨-, -, e⟩ <;> rw [e]
    · exact ⟨[], by simp, fun _ => rfl⟩
    · exact ⟨[.pollKey (some k)], rfl, fun h => absurd (h (some k)) (by simp)⟩
    · exact ⟨[.pollKey none], rfl, fun h => absurd (h none) (by simp)⟩

theorem writeChars_busFrame (ws : List Word) (s : State) : BusFrame s (writeChars ws s) where
  regs    := by simp
  pc      := by simp
  cond    := by simp
  run     := by simp
  cut     := by simp
  heldKey := by simp
  script  := by simp
  mem     := fun _ _ => by simp
  wf      := fun w => by simpa using w
  keys    := ⟨[], by simp⟩
  trace   := ⟨_, writeChars_trace s ws, fun _ => writeChars_mem s ws⟩

theorem setHold_busFrame (h : Option TrapHold) (s : State) : BusFrame s (s.setHold h) :=
  ⟨rfl, rfl, rfl, rfl, rfl, rfl, rfl, fun _ _ => rfl, id, ⟨[], rfl⟩, ⟨[], by simp, fun _ => rfl⟩⟩

theorem writeChar_busFrame (c : Word) (s : State) : BusFrame s (writeChar c s) := writeChars_busFrame [c] s

/-! ### The string loop (R119, R121, R126) -/

/-- One operation of the loop: no operation is allowed, so the rest is left. -/
theorem writeString_stop (f : StringForm) (cs : List Word) (p : Word) (s : State) :
    writeString f 0 cs p s = s.setHold (some (.string f cs p)) := by cases cs <;> rfl

/-- One operation of the loop: a code is written. -/
theorem writeString_code (f : StringForm) (n : Nat) (c : Word) (cs : List Word) (p : Word) (s : State) :
    writeString f (n + 1) (c :: cs) p s = writeString f n cs p (writeChar c s) := rfl

/-- One operation of the loop: a zero Word ends it. -/
theorem writeString_zero (f : StringForm) (n : Nat) (p : Word) (s : State) (h : (memRead p s).1 = 0x0000#16) :
    writeString f (n + 1) [] p s = (memRead p s).2.setHold none := by
  rw [writeString]; simp only [h, if_true]

/-- One operation of the loop: a non-zero Word gives its codes, and the loop goes on at the next address. -/
theorem writeString_succ (f : StringForm) (n : Nat) (p : Word) (s : State) (h : (memRead p s).1 ≠ 0x0000#16) :
    writeString f (n + 1) [] p s = writeString f n (f.codes (memRead p s).1) (p + 1#16) (memRead p s).2 := by
  rw [writeString]; simp only [h, if_false]

/-- The codes that are left are written first. -/
theorem writeString_codes (f : StringForm) (n : Nat) (cs : List Word) (p : Word) (s : State) :
    writeString f (cs.length + n) cs p s = writeString f n [] p (writeChars cs s) := by
  induction cs generalizing s with
  | nil => rw [List.length_nil, Nat.zero_add]; rfl
  | cons c cs ih =>
    rw [List.length_cons, show cs.length + 1 + n = (cs.length + n) + 1 by omega, writeString_code, ih]; rfl

/-- Every step of induction over the loop: no operation left, a code, the end, a Word. -/
theorem writeString_induct (f : StringForm) {P : Nat → List Word → Word → State → Prop}
    (stop : ∀ cs p s, P 0 cs p s)
    (code : ∀ n c cs p s, P n cs p (writeChar c s) → P (n + 1) (c :: cs) p s)
    (zero : ∀ n p s, (memRead p s).1 = 0x0000#16 → P (n + 1) [] p s)
    (word : ∀ n p s, (memRead p s).1 ≠ 0x0000#16 → P n (f.codes (memRead p s).1) (p + 1#16) (memRead p s).2 →
      P (n + 1) [] p s) :
    ∀ n cs p s, P n cs p s := by
  intro n
  induction n with
  | zero => exact stop
  | succ n ih =>
    intro cs p s
    cases cs with
    | cons c cs => exact code n c cs p s (ih _ _ _)
    | nil =>
      by_cases h : (memRead p s).1 = 0x0000#16
      · exact zero n p s h
      · exact word n p s h (ih _ _ _)

/-- Whatever the string, the loop changes nothing outside the bus frame. -/
theorem writeString_busFrame (f : StringForm) (n : Nat) (cs : List Word) (p : Word) (s : State) :
    BusFrame s (writeString f n cs p s) := by
  induction n, cs, p, s using writeString_induct f with
  | stop cs p s => rw [writeString_stop]; exact setHold_busFrame _ s
  | code n c cs p s ih => rw [writeString_code]; exact (writeChar_busFrame c s).trans ih
  | zero n p s h => rw [writeString_zero _ _ _ _ h]; exact (memRead_busFrame p s).trans (setHold_busFrame _ _)
  | word n p s h ih => rw [writeString_succ _ _ _ _ h]; exact (memRead_busFrame p s).trans ih

/-- The loop ends with the routine finished, or with the rest of it left. -/
theorem writeString_hold (f : StringForm) (n : Nat) (cs : List Word) (p : Word) (s : State) :
    (writeString f n cs p s).hold = none ∨ ∃ cs' p', (writeString f n cs p s).hold = some (.string f cs' p') := by
  induction n, cs, p, s using writeString_induct f with
  | stop cs p s => rw [writeString_stop]; exact .inr ⟨cs, p, rfl⟩
  | code n c cs p s ih => rw [writeString_code]; exact ih
  | zero n p s h => rw [writeString_zero _ _ _ _ h]; exact .inl rfl
  | word n p s h ih => rw [writeString_succ _ _ _ _ h]; exact ih

/-- A loop that ends within `n` operations ends the same way with more allowed. -/
theorem writeString_mono (f : StringForm) {n : Nat} (m : Nat) (hle : n ≤ m) (cs : List Word) (p : Word) (s : State)
    (h : (writeString f n cs p s).hold = none) : writeString f m cs p s = writeString f n cs p s := by
  induction n, cs, p, s using writeString_induct f generalizing m with
  | stop cs p s => rw [writeString_stop] at h; cases h
  | code n c cs p s ih =>
    obtain ⟨m, rfl⟩ : ∃ m', m = m' + 1 := ⟨m - 1, by omega⟩
    rw [writeString_code] at h ⊢
    exact ih m (by omega) h
  | zero n p s hz =>
    obtain ⟨m, rfl⟩ : ∃ m', m = m' + 1 := ⟨m - 1, by omega⟩
    rw [writeString_zero _ _ _ _ hz, writeString_zero _ _ _ _ hz]
  | word n p s hz ih =>
    obtain ⟨m, rfl⟩ : ∃ m', m = m' + 1 := ⟨m - 1, by omega⟩
    rw [writeString_succ _ _ _ _ hz] at h ⊢
    rw [writeString_succ _ _ _ _ hz]
    exact ih m (by omega) h

/-- A string routine stays inside the bus frame. -/
theorem stringFrom_busFrame (f : StringForm) (cs : List Word) (p : Word) (s : State) :
    BusFrame s (stringFrom f cs p s) := writeString_busFrame ..

/-- A string routine is finished, or its rest is left. -/
theorem stringFrom_hold (f : StringForm) (cs : List Word) (p : Word) (s : State) :
    (stringFrom f cs p s).hold = none ∨ ∃ cs' p', (stringFrom f cs p s).hold = some (.string f cs' p') :=
  writeString_hold ..

/-! ### Reading a key (R117, R120, R125) -/

theorem getcRead_next {s : State} {k : Word} {rest : List Word} (h : NextKey k rest s) :
    getcRead s = finishGetc k (s.setKeys rest) := by
  unfold getcRead; rw [takeKey_next s h]

theorem getcRead_noKey {s : State} (h : NoKey s) : getcRead s = s.setHold (some .getc) := by
  unfold getcRead; rw [takeKey_noKey s h]

theorem inRead_next {s : State} {k : Word} {rest : List Word} (n : Nat) (h : NextKey k rest s) :
    inRead n s = inEcho n k ((s.setKeys rest).emit (.readKey k)) := by
  unfold inRead; rw [takeKey_next s h]

theorem inRead_noKey {s : State} (n : Nat) (h : NoKey s) : inRead n s = s.setHold (some (.in_ [])) := by
  unfold inRead; rw [takeKey_noKey s h]

theorem inFrom_stop (cs : List Word) (s : State) : inFrom 0 cs s = s.setHold (some (.in_ cs)) := by cases cs <;> rfl

/-- IN with enough operations writes its whole prompt and then reads its key. -/
theorem inFrom_prompt (n : Nat) (cs : List Word) (s : State) :
    inFrom (cs.length + (n + 1)) cs s = inRead n (writeChars cs s) := by
  induction cs generalizing s with
  | nil => rw [List.length_nil, Nat.zero_add]; rfl
  | cons c cs ih =>
    rw [List.length_cons, show cs.length + 1 + (n + 1) = (cs.length + (n + 1)) + 1 by omega]; exact ih _

/-- With no cut, IN writes its whole prompt and then reads its key and echoes it. -/
theorem inRoutineWith_whole {s : State} (h : s.cut = none) (prompt : List Word) :
    inRoutineWith prompt s = inRead 1 (writeChars prompt s) := by
  unfold inRoutineWith; rw [State.allowed_none h]; exact inFrom_prompt 1 prompt s

/-- IN that waits with its prompt written, and is not cut before the key is read, does what its key read does. -/
theorem inFrom_nil (n : Nat) (s : State) : inFrom (n + 1) [] s = inRead n s := rfl

/-- A waiting trap with no key goes on waiting, and nothing changes (R125). -/
theorem resumeHold_noKey {s : State} {w : TrapHold} (hs : s.hold = some w) (hw : WaitsForKey s) (h : NoKey s) :
    resumeHold w s = s := by
  have kept : s.setHold (some w) = s := by rw [← hs]; rfl
  rcases hw with e | e <;> obtain rfl := Option.some.inj (hs.symm.trans e)
  · exact (getcRead_noKey h).trans kept
  · show inFrom _ [] s = s
    cases s.allowed _ with
    | zero => exact (inFrom_stop [] s).trans kept
    | succ n => exact (inRead_noKey n h).trans kept

/-- All that GETC, IN and the rest of any routine may change outside memory, COND and `hold`. -/
structure KeyFrame (s t : State) : Prop where
  regs    : ∀ q, q ≠ .r0 → t.reg q = s.reg q
  pc      : t.pc = s.pc
  run     : t.run = s.run
  heldKey : t.heldKey = s.heldKey
  script  : t.script = s.script
  cut     : t.cut = s.cut
  keys    : ∃ taken, s.keys = taken ++ t.keys
  trace   : ∃ ev, t.trace = s.trace ++ ev ∧ ((∀ k, Event.pollKey k ∉ ev) → t.mem = s.mem)
  mem     : MemKept [Config.kbsr, Config.kbdr] s t
  wf      : s.mem.wf = true → t.mem.wf = true

theorem KeyFrame.trans {s t u : State} (h : KeyFrame s t) (g : KeyFrame t u) : KeyFrame s u where
  regs    := fun q hq => (g.regs q hq).trans (h.regs q hq)
  pc      := g.pc.trans h.pc
  run     := g.run.trans h.run
  heldKey := g.heldKey.trans h.heldKey
  script  := g.script.trans h.script
  cut     := g.cut.trans h.cut
  mem     := fun a ha => (g.mem a ha).trans (h.mem a ha)
  wf      := fun w => g.wf (h.wf w)
  keys    := by
    obtain ⟨x, hx⟩ := h.keys
    obtain ⟨y, hy⟩ := g.keys
    exact ⟨x ++ y, by rw [hx, hy, List.append_assoc]⟩
  trace   := by
    obtain ⟨x, hx, mx⟩ := h.trace
    obtain ⟨y, hy, my⟩ := g.trace
    refine ⟨x ++ y, by rw [hy, hx, List.append_assoc], fun hk => ?_⟩
    rw [my fun k hm => hk k (List.mem_append_right _ hm), mx fun k hm => hk k (List.mem_append_left _ hm)]

theorem BusFrame.keyFrame {s t : State} (h : BusFrame s t) : KeyFrame s t :=
  ⟨fun q _ => h.reg q, h.pc, h.run, h.heldKey, h.script, h.cut, h.keys, h.trace, h.mem, h.wf⟩

theorem getcRead_keyFrame (s : State) : KeyFrame s (getcRead s) := by
  rcases nextKey_or_noKey s with ⟨k, rest, h⟩ | h
  · rw [getcRead_next h]
    exact ⟨fun _ hq => State.setReg_reg_ne _ _ hq, rfl, rfl, rfl, rfl, rfl, h.keys_eq, ⟨_, rfl, fun _ => rfl⟩, fun _ _ => rfl, id⟩
  · rw [getcRead_noKey h]; exact (setHold_busFrame _ s).keyFrame

theorem inEcho_keyFrame (n : Nat) (k : Word) (s : State) : KeyFrame s (inEcho n k s) := by
  cases n with
  | zero => exact (setHold_busFrame _ s).keyFrame
  | succ n =>
    exact ⟨fun _ hq => State.setReg_reg_ne _ _ hq, rfl, rfl, rfl, rfl, rfl, ⟨[], rfl⟩, ⟨_, rfl, fun _ => rfl⟩, fun _ _ => rfl, id⟩

theorem inRead_keyFrame (n : Nat) (s : State) : KeyFrame s (inRead n s) := by
  rcases nextKey_or_noKey s with ⟨k, rest, h⟩ | h
  · rw [inRead_next n h]
    refine KeyFrame.trans ?_ (inEcho_keyFrame n k _)
    exact ⟨fun _ _ => rfl, rfl, rfl, rfl, rfl, rfl, h.keys_eq, ⟨_, rfl, fun _ => rfl⟩, fun _ _ => rfl, id⟩
  · rw [inRead_noKey n h]; exact (setHold_busFrame _ s).keyFrame

theorem inFrom_keyFrame (n : Nat) (cs : List Word) (s : State) : KeyFrame s (inFrom n cs s) := by
  induction n generalizing cs s with
  | zero => rw [inFrom_stop]; exact (setHold_busFrame _ s).keyFrame
  | succ n ih =>
    cases cs with
    | nil => exact inRead_keyFrame n s
    | cons c cs => exact (writeChar_busFrame c s).keyFrame.trans (ih cs (writeChar c s))

/-- The rest of a routine changes nothing outside the key frame. -/
theorem resumeHold_keyFrame (h : TrapHold) (s : State) : KeyFrame s (resumeHold h s) := by
  cases h with
  | getc => exact getcRead_keyFrame s
  | in_ cs => exact inFrom_keyFrame _ cs s
  | echo k => exact inEcho_keyFrame _ k s
  | string f cs p => exact (stringFrom_busFrame f cs p s).keyFrame

/-- GETC's key read never writes COND (R117). -/
theorem getcRead_cond (s : State) : (getcRead s).cond = s.cond := by
  rcases nextKey_or_noKey s with ⟨k, rest, h⟩ | h
  · rw [getcRead_next h]; rfl
  · rw [getcRead_noKey h]; rfl

/-- IN has finished with COND from R0, or it is unfinished and has left COND and R0 (R120). -/
def InOutcome (s t : State) : Prop :=
  (t.hold = none ∧ t.cond = flagOf (t.reg .r0)) ∨ (t.hold ≠ none ∧ t.cond = s.cond ∧ t.regs = s.regs)

theorem inEcho_outcome (n : Nat) (k : Word) (s : State) : InOutcome s (inEcho n k s) := by
  cases n with
  | zero => exact .inr ⟨by simp [inEcho], rfl, rfl⟩
  | succ n =>
    refine .inl ⟨rfl, ?_⟩
    simp [inEcho, finishIn]

theorem inRead_outcome (n : Nat) (s : State) : InOutcome s (inRead n s) := by
  rcases nextKey_or_noKey s with ⟨k, rest, h⟩ | h
  · rw [inRead_next n h]; exact inEcho_outcome n k _
  · rw [inRead_noKey n h]; exact .inr ⟨by simp, rfl, rfl⟩

theorem inFrom_outcome (n : Nat) (cs : List Word) (s : State) : InOutcome s (inFrom n cs s) := by
  induction n generalizing cs s with
  | zero => rw [inFrom_stop]; exact .inr ⟨by simp, rfl, rfl⟩
  | succ n ih =>
    cases cs with
    | nil => exact inRead_outcome n s
    | cons c cs => exact ih cs (writeChar c s)

/-! ### The trap instructions -/

theorem trapRoutine_getc (s : State) : trapRoutine 0x20#8 s = getcRoutine s := rfl
theorem trapRoutine_out (s : State) : trapRoutine 0x21#8 s = outRoutine s := rfl
theorem trapRoutine_puts (s : State) : trapRoutine 0x22#8 s = putsRoutine s := rfl
theorem trapRoutine_in (s : State) : trapRoutine 0x23#8 s = inRoutine s := rfl
theorem trapRoutine_putsp (s : State) : trapRoutine 0x24#8 s = putspRoutine s := rfl
theorem trapRoutine_halt (s : State) : trapRoutine 0x25#8 s = haltRoutine s := rfl

/-- A vector that names no routine does nothing after the write of R7 (R123). -/
theorem trapRoutine_undefined {v : BitVec 8} (h : definedVector v = false) (s : State) : trapRoutine v s = s := by
  simp only [definedVector, Bool.or_eq_false_iff, beq_eq_false_iff_ne, ne_eq] at h
  obtain ⟨⟨⟨⟨⟨h0, h1⟩, h2⟩, h3⟩, h4⟩, h5⟩ := h
  simp only [trapRoutine, h0, h1, h2, h3, h4, h5, if_false]

/-- A vector is one of the six defined ones or undefined. -/
theorem vector_cases (v : BitVec 8) : v = 0x20#8 ∨ v = 0x21#8 ∨ v = 0x22#8 ∨ v = 0x23#8 ∨ v = 0x24#8 ∨ v = 0x25#8 ∨
    definedVector v = false := by
  by_cases h : definedVector v = true
  · simp only [definedVector, Bool.or_eq_true, beq_iff_eq] at h
    tauto
  · simp only [Bool.not_eq_true] at h
    tauto

end Sys2Proof.Machine
end

