-- ==== Sys2Proof/Laws/Step.lean ====
section
/-! SUPPORT. What a step can do, said once: the environment's turn, the fetch, and the cases of `step`. -/

namespace Sys2Proof.Machine

/-- All that the environment's turn may change (R146, R172). -/
structure TurnFrame (s t : State) : Prop where
  regs  : t.regs = s.regs
  pc    : t.pc = s.pc
  cond  : t.cond = s.cond
  run   : t.run = s.run
  mem   : t.mem = s.mem
  hold  : t.hold = s.hold
  trace : t.trace = s.trace
  keys  : ∃ new, t.keys = s.keys ++ new

theorem TurnFrame.refl (s : State) : TurnFrame s s := ⟨rfl, rfl, rfl, rfl, rfl, rfl, rfl, ⟨[], by simp⟩⟩

theorem applyAction_frame {a : EnvAction} {s t : State} (h : applyAction a s = some t) :
    TurnFrame s t ∧ t.script = s.script := by
  cases a <;> cases h
  · exact ⟨⟨rfl, rfl, rfl, rfl, rfl, rfl, rfl, ⟨_, rfl⟩⟩, rfl⟩
  all_goals exact ⟨⟨rfl, rfl, rfl, rfl, rfl, rfl, rfl, ⟨[], by simp⟩⟩, rfl⟩

/-- A turn ends the run exactly when it holds `abort` (R163). -/
theorem applyTurn_eq_none (as : List EnvAction) (s : State) : applyTurn as s = none ↔ EnvAction.abort ∈ as := by
  induction as generalizing s with
  | nil => simp [applyTurn]
  | cons a as ih => cases a <;> simp [applyTurn, applyAction, ih]

theorem applyTurn_frame {as : List EnvAction} {s t : State} (h : applyTurn as s = some t) :
    TurnFrame s t ∧ t.script = s.script := by
  induction as generalizing s with
  | nil => cases h; exact ⟨.refl _, rfl⟩
  | cons a as ih =>
    rw [applyTurn] at h
    cases ha : applyAction a s with
    | none => rw [ha] at h; cases h
    | some s' =>
      rw [ha] at h
      obtain ⟨f, fs⟩ := applyAction_frame ha
      obtain ⟨g, gs⟩ := ih h
      obtain ⟨x, hx⟩ := f.keys
      obtain ⟨y, hy⟩ := g.keys
      exact ⟨⟨g.regs.trans f.regs, g.pc.trans f.pc, g.cond.trans f.cond, g.run.trans f.run, g.mem.trans f.mem,
        g.hold.trans f.hold, g.trace.trans f.trace, ⟨x ++ y, by rw [hy, hx, List.append_assoc]⟩⟩, gs.trans fs⟩

theorem environmentTurn_nil {s : State} (h : s.script = []) : environmentTurn s = some (s.setCut none) := by
  unfold environmentTurn; rw [h]

theorem environmentTurn_cons {s : State} {as : List EnvAction} {ts : List (List EnvAction)} (h : s.script = as :: ts) :
    environmentTurn s = applyTurn as ((s.setScript ts).setCut none) := by
  unfold environmentTurn; rw [h]

/-- Whatever the environment does in its turn, the unit itself is unchanged and one turn of the script is used up. -/
theorem environmentTurn_frame {s t : State} (h : environmentTurn s = some t) :
    TurnFrame s t ∧ t.script = s.script.tail := by
  cases hs : s.script with
  | nil => rw [environmentTurn_nil hs] at h; cases h; exact ⟨⟨rfl, rfl, rfl, rfl, rfl, rfl, rfl, ⟨[], by simp⟩⟩, by simp [hs]⟩
  | cons as ts =>
    rw [environmentTurn_cons hs] at h
    obtain ⟨f, fs⟩ := applyTurn_frame h
    exact ⟨⟨f.regs, f.pc, f.cond, f.run, f.mem, f.hold, f.trace, f.keys⟩, fs⟩

theorem environmentTurn_eq_none (s : State) :
    environmentTurn s = none ↔ ∃ t, s.script.head? = some t ∧ EnvAction.abort ∈ t := by
  cases hs : s.script with
  | nil => simp [environmentTurn_nil hs]
  | cons as ts => simp [environmentTurn_cons hs, applyTurn_eq_none]

/-- A turn of key presses alone adds the keys at the end and does nothing else (R146, R172). -/
theorem applyTurn_press (ks : List Word) (s : State) :
    applyTurn (ks.map .press) s = some (s.setKeys (s.keys ++ ks)) := by
  induction ks generalizing s with
  | nil => rw [List.append_nil]; rfl
  | cons k ks ih => rw [List.map_cons, applyTurn, applyAction]; simp [ih, State.setKeys]

/-- A turn that gives no key, on a console without a key, changes nothing but the cut. -/
theorem applyTurn_givesNoKey {as : List EnvAction} (h : GivesNoKey as) {s : State} (hs : NoKey s) :
    ∃ n, applyTurn as s = some (s.setCut n) := by
  induction as generalizing s with
  | nil => exact ⟨s.cut, rfl⟩
  | cons a as ih =>
    have later : GivesNoKey as := fun b hb => h b (List.mem_cons_of_mem _ hb)
    rcases h a List.mem_cons_self with rfl | ⟨n, rfl⟩
    · have released : s.setHeldKey none = s := by rw [← hs.2]; rfl
      simp only [applyTurn, applyAction, released]
      exact ih later hs
    · obtain ⟨m, hm⟩ := ih later (s := s.setCut (some n)) hs
      exact ⟨m, hm⟩

/-- An environment that gives no key in its turn changes nothing but the cut and the script (R125). -/
theorem environmentTurn_givesNoKey {s : State} (hs : NoKey s) (h : ∀ turn, turn ∈ s.script.take 1 → GivesNoKey turn) :
    ∃ n, environmentTurn s = some ((s.setScript s.script.tail).setCut n) := by
  cases hc : s.script with
  | nil => exact ⟨none, by rw [environmentTurn_nil hc, List.tail_nil, ← hc]; rfl⟩
  | cons as ts =>
    rw [environmentTurn_cons hc]
    exact applyTurn_givesNoKey (h as (by simp [hc])) (s := (s.setScript ts).setCut none) hs

/-! ### The fetch (R18, R38) -/

theorem fetch_fst (s : State) : (fetch s).1 = (memRead s.pc s).1 := rfl

theorem fetch_snd (s : State) : (fetch s).2 = (memRead s.pc s).2.setPc (s.pc + 1#16) := by
  simp [fetch]

/-- A fetch from any address but KBSR reads the array and moves PC on by one. -/
theorem fetch_plain {s : State} (h : s.pc ≠ Config.kbsr) : fetch s = (s.mem.read s.pc, s.setPc (s.pc + 1#16)) := by
  simp [fetch, memRead_plain s h]

theorem instructionCycle_eq (s : State) : instructionCycle s = exec (decode (fetch s).1) (fetch s).2 := rfl

/-! ### The step -/

theorem step_halted {s : State} (h : s.run = .halted) : step s = .next s := by unfold step; rw [h]

theorem step_running {s : State} (h : s.run = .running) : step s = environmentStep s := by unfold step; rw [h]

/-- A running step whose environment does not end the run: an unfinished trap goes on, or the next instruction runs. -/
theorem step_of_turn {s s' : State} (h : s.run = .running) (ht : environmentTurn s = some s') :
    step s = match s'.hold with
      | some w => .next (resumeHold w s')
      | none => exec (decode (fetch s').1) (fetch s').2 := by
  rw [step_running h, environmentStep, ht]; rfl

/-- A step that finds a routine unfinished does the rest of it and fetches nothing (R125, R126). -/
theorem step_resumes {s s' : State} {w : TrapHold} (h : s.run = .running) (ht : environmentTurn s = some s')
    (hw : s.hold = some w) : step s = .next (resumeHold w s') := by
  rw [step_of_turn h ht, (environmentTurn_frame ht).1.hold, hw]

/-- Every way a step can answer a next state: the unit is HALTED and nothing happens; or, after the environment's turn,
an unfinished trap goes on; or the fetched instruction runs. -/
theorem step_next_cases {s t : State} (h : step s = .next t) :
    (s.run = .halted ∧ t = s) ∨
    (s.run = .running ∧ ∃ s', environmentTurn s = some s' ∧
      ((∃ w, s'.hold = some w ∧ t = resumeHold w s') ∨
       (s'.hold = none ∧ exec (decode (fetch s').1) (fetch s').2 = .next t))) := by
  cases hr : s.run with
  | halted => rw [step_halted hr] at h; cases h; exact .inl ⟨rfl, rfl⟩
  | running =>
    refine .inr ⟨rfl, ?_⟩
    cases ht : environmentTurn s with
    | none => rw [step_running hr, environmentStep, ht] at h; cases h
    | some s' =>
      refine ⟨s', rfl, ?_⟩
      rw [step_of_turn hr ht] at h
      cases hh : s'.hold with
      | none => rw [hh] at h; exact .inr ⟨rfl, h⟩
      | some w => rw [hh] at h; cases h; exact .inl ⟨w, rfl, rfl⟩

/-- A run whose first step answers `t` is the rest of the run from `t`. -/
theorem run_step {s t : State} (k : Nat) (h : step s = .next t) :
    Host.Core.run core (k + 1) s = Host.Core.run core k t := by
  have general : ∀ (M : Host.Core) (x y : M.State), M.step x = .next y → M.run (k + 1) x = M.run k y := by
    intro M x y e; rw [Host.Core.run, e]
  exact general core s t h

end Sys2Proof.Machine
end

