-- ==== Sys2Proof/Laws/Independence.lean ====
section
/-! SUPPORT. What the bus and the trap routines cannot see: an update of the state that touches neither the console's keys
nor memory passes through them unchanged (10_state.md R24, R26, R31). -/

namespace Sys2Proof.Machine

/-- An update of the state that the MemoryBus and the console cannot see, and that commutes with what they do. -/
structure Unseen (f : State → State) : Prop where
  keys     : ∀ s, (f s).keys = s.keys
  heldKey  : ∀ s, (f s).heldKey = s.heldKey
  cut      : ∀ s, (f s).cut = s.cut
  mem      : ∀ s, (f s).mem = s.mem
  setHold  : ∀ s h, (f s).setHold h = f (s.setHold h)
  setKeys  : ∀ s ks, (f s).setKeys ks = f (s.setKeys ks)
  memWrite : ∀ s a v, (f s).memWrite a v = f (s.memWrite a v)
  emit     : ∀ s e, (f s).emit e = f (s.emit e)

theorem unseen_setCond (c : Cond) : Unseen (·.setCond c) :=
  ⟨fun _ => rfl, fun _ => rfl, fun _ => rfl, fun _ => rfl, fun _ _ => rfl, fun _ _ => rfl, fun _ _ _ => rfl, fun _ _ => rfl⟩

theorem unseen_run (q : Run) : Unseen (fun s => { s with run := q }) :=
  ⟨fun _ => rfl, fun _ => rfl, fun _ => rfl, fun _ => rfl, fun _ _ => rfl, fun _ _ => rfl, fun _ _ _ => rfl, fun _ _ => rfl⟩

theorem unseen_setPc (v : Word) : Unseen (·.setPc v) :=
  ⟨fun _ => rfl, fun _ => rfl, fun _ => rfl, fun _ => rfl, fun _ _ => rfl, fun _ _ => rfl, fun _ _ _ => rfl, fun _ _ => rfl⟩

theorem unseen_setReg (r : Reg) (v : Word) : Unseen (·.setReg r v) :=
  ⟨fun _ => rfl, fun _ => rfl, fun _ => rfl, fun _ => rfl, fun _ _ => rfl, fun _ _ => rfl, fun _ _ _ => rfl, fun _ _ => rfl⟩

/-- The record with `pre` put in front of it: the past of the ports. -/
def withPast (pre : List Event) (s : State) : State := { s with trace := pre ++ s.trace }

theorem unseen_withPast (pre : List Event) : Unseen (withPast pre) :=
  ⟨fun _ => rfl, fun _ => rfl, fun _ => rfl, fun _ => rfl, fun _ _ => rfl, fun _ _ => rfl, fun _ _ _ => rfl,
    fun s e => by simp [withPast, State.emit]⟩

variable {f : State → State}

theorem Unseen.nextKey (hf : Unseen f) {k : Word} {rest : List Word} {s : State} :
    NextKey k rest (f s) ↔ NextKey k rest s := by simp only [NextKey, hf.keys, hf.heldKey]

theorem Unseen.noKey (hf : Unseen f) {s : State} : NoKey (f s) ↔ NoKey s := by
  simp only [NoKey, hf.keys, hf.heldKey]

theorem Unseen.pollStatus (hf : Unseen f) (s : State) : pollStatus (f s) = f (pollStatus s) := by
  rcases nextKey_or_noKey s with ⟨k, rest, h⟩ | h
  · rw [pollStatus_next _ h, pollStatus_next _ (hf.nextKey.mpr h), hf.setKeys, hf.emit, hf.memWrite, hf.memWrite]
  · rw [pollStatus_noKey _ h, pollStatus_noKey _ (hf.noKey.mpr h), hf.emit, hf.memWrite]

theorem Unseen.memRead (hf : Unseen f) (a : Word) (s : State) :
    memRead a (f s) = ((memRead a s).1, f (memRead a s).2) := by
  by_cases ha : a = Config.kbsr
  · subst ha
    rw [memRead_status, memRead_status, hf.pollStatus, hf.mem]
  · rw [memRead_plain _ ha, memRead_plain _ ha, hf.mem]

theorem Unseen.writeChars (hf : Unseen f) (ws : List Word) (s : State) :
    writeChars ws (f s) = f (writeChars ws s) := by
  induction ws generalizing s with
  | nil => rfl
  | cons w ws ih => simp only [Machine.writeChars, Machine.writeChar, hf.emit, ih]

theorem Unseen.writeString (hf : Unseen f) (form : StringForm) (n : Nat) (cs : List Word) (p : Word) (s : State) :
    writeString form n cs p (f s) = f (writeString form n cs p s) := by
  induction n, cs, p, s using writeString_induct form with
  | stop cs p s => rw [writeString_stop, writeString_stop, hf.setHold]
  | code n c cs p s ih => rw [writeString_code, writeString_code, ← ih, Machine.writeChar, Machine.writeChar, hf.emit]
  | zero n p s h =>
    have hm := hf.memRead p s
    rw [writeString_zero _ _ _ _ h, writeString_zero _ _ _ _ (by rw [hm]; exact h), hm, hf.setHold]
  | word n p s h ih =>
    have hm := hf.memRead p s
    rw [writeString_succ _ _ _ _ h, writeString_succ _ _ _ _ (by rw [hm]; exact h), hm, ih]

/-- A string routine passes such an update through. -/
theorem Unseen.stringFrom (hf : Unseen f) (form : StringForm) (cs : List Word) (p : Word) (s : State) :
    stringFrom form cs p (f s) = f (stringFrom form cs p s) := by
  have ha : (f s).allowed (stringOps cs (f s)) = s.allowed (stringOps cs s) := by
    simp only [State.allowed, stringOps, hf.cut, hf.keys]
  unfold Machine.stringFrom
  rw [ha, hf.writeString]

/-- What a routine has left in `hold` is not seen by the loop. -/
theorem writeString_setHold (form : StringForm) (h : Option TrapHold) (n : Nat) (cs : List Word) (p : Word) (s : State) :
    writeString form n cs p (s.setHold h) = writeString form n cs p s := by
  have hr : ∀ (s : State) (p : Word), memRead p (s.setHold h) = ((memRead p s).1, (memRead p s).2.setHold h) := by
    intro s p
    by_cases hp : p = Config.kbsr
    · subst hp
      rw [memRead_status, memRead_status]
      have e : pollStatus (s.setHold h) = (pollStatus s).setHold h := by
        rcases nextKey_or_noKey s with ⟨k, rest, hk⟩ | hk
        · rw [pollStatus_next s hk, pollStatus_next (s.setHold h) hk]; rfl
        · rw [pollStatus_noKey s hk, pollStatus_noKey (s.setHold h) hk]; rfl
      rw [e]; rfl
    · rw [memRead_plain _ hp, memRead_plain _ hp]; rfl
  induction n, cs, p, s using writeString_induct form with
  | stop cs p s => rw [writeString_stop, writeString_stop]; rfl
  | code n c cs p s ih => rw [writeString_code, writeString_code, ← ih]; rfl
  | zero n p s hz => rw [writeString_zero _ _ _ _ hz, writeString_zero _ _ _ _ (by rw [hr]; exact hz), hr]; rfl
  | word n p s hz ih =>
    rw [writeString_succ _ _ _ _ hz, writeString_succ _ _ _ _ (by rw [hr]; exact hz), hr, ← ih]

/-- A loop that is cut and goes on from what was left is the loop with the operations of both parts. -/
theorem writeString_add (form : StringForm) (n m : Nat) (cs : List Word) (p : Word) (s : State) {cs' : List Word} {p' : Word}
    (h : (writeString form n cs p s).hold = some (.string form cs' p')) :
    writeString form m cs' p' (writeString form n cs p s) = writeString form (n + m) cs p s := by
  induction n, cs, p, s using writeString_induct form with
  | stop cs p s =>
    rw [writeString_stop] at h ⊢
    cases h
    rw [writeString_setHold, Nat.zero_add]
  | code n c cs p s ih =>
    rw [writeString_code] at h ⊢
    rw [ih h, show n + 1 + m = (n + m) + 1 by omega, writeString_code]
  | zero n p s hz => rw [writeString_zero _ _ _ _ hz] at h; cases h
  | word n p s hz ih =>
    rw [writeString_succ _ _ _ _ hz] at h ⊢
    rw [ih h, show n + 1 + m = (n + m) + 1 by omega, writeString_succ _ _ _ _ hz]

end Sys2Proof.Machine
end

