-- ==== Sys2Proof/Laws/Exec.lean ====
section
/-! SUPPORT. Each instruction in terms of the shared operations, and the vectors of TRAP. The provers cite these instead of
unfolding the meanings. -/

namespace Sys2Proof.Machine

variable (s : State)

/-! ### Loading a register (R101 to R103) -/

theorem loadFrom_eq (dr : Reg) (a : Word) : loadFrom dr a s = setRegCc dr (memRead a s).1 (memRead a s).2 := rfl

/-- A load writes its register and its flag over the state after the bus read. -/
theorem loadFrom_writesDest (dr : Reg) (a : Word) :
    WritesDest dr (memRead a s).1 (memRead a s).2 (loadFrom dr a s) := setRegCc_writesDest ..

@[simp] theorem loadFrom_pc (dr : Reg) (a : Word) : (loadFrom dr a s).pc = s.pc := by simp [loadFrom_eq]
@[simp] theorem loadFrom_run (dr : Reg) (a : Word) : (loadFrom dr a s).run = s.run := by simp [loadFrom_eq]
@[simp] theorem loadFrom_hold (dr : Reg) (a : Word) : (loadFrom dr a s).hold = s.hold := by simp [loadFrom_eq]
@[simp] theorem loadFrom_heldKey (dr : Reg) (a : Word) : (loadFrom dr a s).heldKey = s.heldKey := by simp [loadFrom_eq]
@[simp] theorem loadFrom_cut (dr : Reg) (a : Word) : (loadFrom dr a s).cut = s.cut := by simp [loadFrom_eq]
@[simp] theorem loadFrom_script (dr : Reg) (a : Word) : (loadFrom dr a s).script = s.script := by simp [loadFrom_eq]
@[simp] theorem loadFrom_mem (dr : Reg) (a : Word) : (loadFrom dr a s).mem = (memRead a s).2.mem := by simp [loadFrom_eq]
@[simp] theorem loadFrom_keys (dr : Reg) (a : Word) : (loadFrom dr a s).keys = (memRead a s).2.keys := by simp [loadFrom_eq]
@[simp] theorem loadFrom_trace (dr : Reg) (a : Word) : (loadFrom dr a s).trace = (memRead a s).2.trace := by
  simp [loadFrom_eq]

theorem loadFrom_reg (dr q : Reg) (a : Word) : (loadFrom dr a s).reg q = if q = dr then (memRead a s).1 else s.reg q := by
  rw [loadFrom_eq, setRegCc_reg, memRead_reg]

/-! ### The instructions -/

theorem exec_br (n : Bool) (z : Bool) (p : Bool) (off : BitVec 9) :
    exec (.br n z p off) s = .next (if brTaken n z p s.cond then s.setPc (pcRelative s off) else s) := rfl

theorem exec_add (dr : Reg) (sr1 : Reg) (sr2 : Reg) :
    exec (.add dr sr1 sr2) s = .next (setRegCc dr (s.reg sr1 + s.reg sr2) s) := rfl

theorem exec_addImm (dr : Reg) (sr1 : Reg) (imm : BitVec 5) :
    exec (.addImm dr sr1 imm) s = .next (setRegCc dr (s.reg sr1 + sext imm) s) := rfl

theorem exec_and (dr : Reg) (sr1 : Reg) (sr2 : Reg) :
    exec (.and dr sr1 sr2) s = .next (setRegCc dr (s.reg sr1 &&& s.reg sr2) s) := rfl

theorem exec_andImm (dr : Reg) (sr1 : Reg) (imm : BitVec 5) :
    exec (.andImm dr sr1 imm) s = .next (setRegCc dr (s.reg sr1 &&& sext imm) s) := rfl

theorem exec_not (dr : Reg) (sr : Reg) :
    exec (.not dr sr) s = .next (setRegCc dr (s.reg sr ^^^ 0xFFFF#16) s) := rfl

theorem exec_jmp (base : Reg) :
    exec (.jmp base) s = .next (s.setPc (s.reg base)) := rfl

theorem exec_ret :
    exec .ret s = .next (s.setPc (s.reg .r7)) := rfl

theorem exec_jsr (off : BitVec 11) :
    exec (.jsr off) s = .next ((s.setReg .r7 s.pc).setPc (s.pc + sext off)) := rfl

theorem exec_jsrr (base : Reg) :
    exec (.jsrr base) s = .next ((s.setReg .r7 s.pc).setPc ((s.setReg .r7 s.pc).reg base)) := rfl

theorem exec_ld (dr : Reg) (off : BitVec 9) :
    exec (.ld dr off) s = .next (loadFrom dr (pcRelative s off) s) := rfl

theorem exec_ldi (dr : Reg) (off : BitVec 9) :
    exec (.ldi dr off) s = .next (loadFrom dr (memRead (pcRelative s off) s).1 (memRead (pcRelative s off) s).2) := rfl

theorem exec_ldr (dr : Reg) (base : Reg) (off : BitVec 6) :
    exec (.ldr dr base off) s = .next (loadFrom dr (baseOffset s base off) s) := rfl

theorem exec_lea (dr : Reg) (off : BitVec 9) :
    exec (.lea dr off) s = .next (setRegCc dr (pcRelative s off) s) := rfl

theorem exec_st (sr : Reg) (off : BitVec 9) :
    exec (.st sr off) s = .next (s.memWrite (pcRelative s off) (s.reg sr)) := rfl

theorem exec_sti (sr : Reg) (off : BitVec 9) :
    exec (.sti sr off) s = .next ((memRead (pcRelative s off) s).2.memWrite (memRead (pcRelative s off) s).1 (s.reg sr)) := by
  rw [← memRead_reg s (pcRelative s off) sr]; rfl

theorem exec_str (sr : Reg) (base : Reg) (off : BitVec 6) :
    exec (.str sr base off) s = .next (s.memWrite (baseOffset s base off) (s.reg sr)) := rfl

theorem exec_rti (bits : BitVec 12) :
    exec (.rti bits) s = .next (s.emit (.invalidOpcode s.instrAddress (0x8#4 ++ bits))) := rfl

theorem exec_res (bits : BitVec 12) :
    exec (.res bits) s = .next (s.emit (.invalidOpcode s.instrAddress (0xD#4 ++ bits))) := rfl

theorem exec_getc :
    exec .getc s = .next (getcRead (trapEntry s)) := rfl

theorem exec_out :
    exec .out s = .next ((trapEntry s).emit (.writeChar (s.reg .r0))) := by
  rw [← trapEntry_reg s (q := .r0) (by decide)]; rfl

theorem exec_in_ :
    exec .in_ s = .next (inRoutine (trapEntry s)) := rfl

theorem exec_halt :
    exec .halt s = .next ((trapEntry s).setHalted) := rfl

theorem exec_puts :
    exec .puts s = .next (stringFrom .puts [] ((trapEntry s).reg .r0) (trapEntry s)) := rfl

theorem exec_putsp :
    exec .putsp s = .next (stringFrom .putsp [] ((trapEntry s).reg .r0) (trapEntry s)) := rfl

theorem exec_trap (v : BitVec 8) :
    exec (.trap v) s = .next (trapRoutine v (trapEntry s)) := rfl

theorem exec_trap_undefined {v : BitVec 8} (h : definedVector v = false) : exec (.trap v) s = .next (trapEntry s) := by
  rw [exec_trap, trapRoutine_undefined h]

/-- A vector with a routine decodes to one of the six named instructions, which is no TRAP term. -/
theorem decodeVector_defined {v : BitVec 8} (h : definedVector v = true) (w : BitVec 8) : decodeVector v ≠ .trap w := by
  rcases vector_cases v with rfl | rfl | rfl | rfl | rfl | rfl | h'
  all_goals first | (intro e; cases e) | (rw [h'] at h; cases h)

/-- To prove something of every instruction: prove it of all but the TRAP terms, of the TRAP terms with an undefined
vector, and carry it from a routine's own name to the TRAP term of its vector. -/
theorem instr_cases (P : Instr → Prop) (named : ∀ i, (∀ v, i ≠ .trap v) → P i)
    (undefinedVector : ∀ v, definedVector v = false → P (.trap v))
    (byVector : ∀ v, definedVector v = true → P (decodeVector v) → P (.trap v)) (i : Instr) : P i := by
  by_cases hn : ∀ v, i ≠ .trap v
  · exact named i hn
  · push Not at hn
    obtain ⟨v, rfl⟩ := hn
    cases hd : definedVector v with
    | false => exact undefinedVector v hd
    | true => exact byVector v hd (named _ (decodeVector_defined hd))

end Sys2Proof.Machine
end

