-- ==== Sys2Proof/Laws/PerInstr.lean ====
section
/-! SUPPORT. One lemma per instruction: a well-formed instruction is read back from its own word. -/

namespace Sys2Proof.Laws.RoundTrip

/-- Decoding the word of a well-formed instruction gives the instruction. -/
def Statement (i : Instr) : Prop := i.wellFormed = true → decode (encode i) = i

theorem br (n z p : Bool) (off : BitVec 9) : Statement (.br n z p off) := by
  intro _
  obtain ⟨h0, h1, h2, h3, h4⟩ := fields_BR 0x0#4 (flagBit n) (flagBit z) (flagBit p) off
  have e : decode (encode (.br n z p off)) = .br n z p off := by
    unfold decode encode
    simp only [h0, h1, h2, h3, h4]
    simp only [flagBit_getLsbD_zero]
    simp [Opcode.ofBits]
  exact e

theorem add (dr sr1 sr2 : Reg) : Statement (.add dr sr1 sr2) := by
  intro _
  obtain ⟨h0, h1, h2, h3, h4⟩ := fields_OPR 0x1#4 dr.toBits sr1.toBits 0b0#1 0b00#2 sr2.toBits
  have e : decode (encode (.add dr sr1 sr2)) = .add dr sr1 sr2 := by
    unfold decode encode
    simp only [h0, h1, h2, h3, h4]
    simp [Opcode.ofBits]
  exact e

theorem addImm (dr sr1 : Reg) (imm : BitVec 5) : Statement (.addImm dr sr1 imm) := by
  intro _
  obtain ⟨h0, h1, h2, h3, h4⟩ := fields_OPI 0x1#4 dr.toBits sr1.toBits 0b1#1 imm
  have e : decode (encode (.addImm dr sr1 imm)) = .addImm dr sr1 imm := by
    unfold decode encode
    simp only [h0, h1, h2, h3, h4]
    simp [Opcode.ofBits]
  exact e

theorem and (dr sr1 sr2 : Reg) : Statement (.and dr sr1 sr2) := by
  intro _
  obtain ⟨h0, h1, h2, h3, h4⟩ := fields_OPR 0x5#4 dr.toBits sr1.toBits 0b0#1 0b00#2 sr2.toBits
  have e : decode (encode (.and dr sr1 sr2)) = .and dr sr1 sr2 := by
    unfold decode encode
    simp only [h0, h1, h2, h3, h4]
    simp [Opcode.ofBits]
  exact e

theorem andImm (dr sr1 : Reg) (imm : BitVec 5) : Statement (.andImm dr sr1 imm) := by
  intro _
  obtain ⟨h0, h1, h2, h3, h4⟩ := fields_OPI 0x5#4 dr.toBits sr1.toBits 0b1#1 imm
  have e : decode (encode (.andImm dr sr1 imm)) = .andImm dr sr1 imm := by
    unfold decode encode
    simp only [h0, h1, h2, h3, h4]
    simp [Opcode.ofBits]
  exact e

theorem ld (r : Reg) (off : BitVec 9) : Statement (.ld r off) := by
  intro _
  obtain ⟨h0, h1, h2⟩ := fields_PCL 0x2#4 r.toBits off
  have e : decode (encode (.ld r off)) = .ld r off := by
    unfold decode encode
    simp only [h0, h1, h2]
    simp [Opcode.ofBits]
  exact e

theorem st (r : Reg) (off : BitVec 9) : Statement (.st r off) := by
  intro _
  obtain ⟨h0, h1, h2⟩ := fields_PCL 0x3#4 r.toBits off
  have e : decode (encode (.st r off)) = .st r off := by
    unfold decode encode
    simp only [h0, h1, h2]
    simp [Opcode.ofBits]
  exact e

theorem ldi (r : Reg) (off : BitVec 9) : Statement (.ldi r off) := by
  intro _
  obtain ⟨h0, h1, h2⟩ := fields_PCL 0xA#4 r.toBits off
  have e : decode (encode (.ldi r off)) = .ldi r off := by
    unfold decode encode
    simp only [h0, h1, h2]
    simp [Opcode.ofBits]
  exact e

theorem sti (r : Reg) (off : BitVec 9) : Statement (.sti r off) := by
  intro _
  obtain ⟨h0, h1, h2⟩ := fields_PCL 0xB#4 r.toBits off
  have e : decode (encode (.sti r off)) = .sti r off := by
    unfold decode encode
    simp only [h0, h1, h2]
    simp [Opcode.ofBits]
  exact e

theorem lea (r : Reg) (off : BitVec 9) : Statement (.lea r off) := by
  intro _
  obtain ⟨h0, h1, h2⟩ := fields_PCL 0xE#4 r.toBits off
  have e : decode (encode (.lea r off)) = .lea r off := by
    unfold decode encode
    simp only [h0, h1, h2]
    simp [Opcode.ofBits]
  exact e

theorem ldr (r base : Reg) (off : BitVec 6) : Statement (.ldr r base off) := by
  intro _
  obtain ⟨h0, h1, h2, h3⟩ := fields_BOL 0x6#4 r.toBits base.toBits off
  have e : decode (encode (.ldr r base off)) = .ldr r base off := by
    unfold decode encode
    simp only [h0, h1, h2, h3]
    simp [Opcode.ofBits]
  exact e

theorem str (r base : Reg) (off : BitVec 6) : Statement (.str r base off) := by
  intro _
  obtain ⟨h0, h1, h2, h3⟩ := fields_BOL 0x7#4 r.toBits base.toBits off
  have e : decode (encode (.str r base off)) = .str r base off := by
    unfold decode encode
    simp only [h0, h1, h2, h3]
    simp [Opcode.ofBits]
  exact e

theorem not (dr sr : Reg) : Statement (.not dr sr) := by
  intro _
  obtain ⟨h0, h1, h2, h3⟩ := fields_BOL 0x9#4 dr.toBits sr.toBits 0b111111#6
  have e : decode (encode (.not dr sr)) = .not dr sr := by
    unfold decode encode
    simp only [h0, h1, h2, h3]
    simp [Opcode.ofBits]
  exact e

theorem jsr (off : BitVec 11) : Statement (.jsr off) := by
  intro _
  obtain ⟨h0, h1, h2⟩ := fields_JSR 0x4#4 0b1#1 off
  have e : decode (encode (.jsr off)) = .jsr off := by
    unfold decode encode
    simp only [h0, h1, h2]
    simp [Opcode.ofBits]
  exact e

theorem jsrr (base : Reg) : Statement (.jsrr base) := by
  intro _
  obtain ⟨h0, h1, h2⟩ := fields_JSRR 0x4#4 0b0#1 0b00#2 base.toBits 0b000000#6
  have e : decode (encode (.jsrr base)) = .jsrr base := by
    unfold decode encode
    simp only [h0, h1, h2]
    simp [Opcode.ofBits]
  exact e

theorem rti (bits : BitVec 12) : Statement (.rti bits) := by
  intro _
  obtain ⟨h0, h1⟩ := fields_NONE 0x8#4 bits
  have e : decode (encode (.rti bits)) = .rti bits := by
    unfold decode encode
    simp only [h0, h1]
    simp [Opcode.ofBits]
  exact e

theorem res (bits : BitVec 12) : Statement (.res bits) := by
  intro _
  obtain ⟨h0, h1⟩ := fields_NONE 0xD#4 bits
  have e : decode (encode (.res bits)) = .res bits := by
    unfold decode encode
    simp only [h0, h1]
    simp [Opcode.ofBits]
  exact e

theorem jmp (base : Reg) : Statement (.jmp base) := by
  intro wf
  obtain ⟨h0, h1, h2, h3⟩ := fields_BOL 0xC#4 0b000#3 base.toBits 0b000000#6
  have e : decode (encode (.jmp base)) = .jmp base := by
    unfold decode encode
    simp only [h0, h1, h2, h3]
    simp only [Instr.wellFormed, bne_iff_ne, ne_eq] at wf
    simp [Opcode.ofBits, decodeJump, wf]
  exact e

theorem trap (vect : BitVec 8) : Statement (.trap vect) := by
  intro wf
  obtain ⟨h0, h1⟩ := fields_TRAP 0xF#4 0x0#4 vect
  have e : decode (encode (.trap vect)) = .trap vect := by
    unfold decode encode
    simp only [h0, h1]
    simp only [Instr.wellFormed, definedVector, Bool.not_eq_true', Bool.or_eq_false_iff, beq_eq_false_iff_ne, ne_eq] at wf
    simp [Opcode.ofBits, decodeVector, wf]
  exact e

theorem getc : Statement .getc := fun _ => by decide

theorem out : Statement .out := fun _ => by decide

theorem puts : Statement .puts := fun _ => by decide

theorem in_ : Statement .in_ := fun _ => by decide

theorem putsp : Statement .putsp := fun _ => by decide

theorem halt : Statement .halt := fun _ => by decide

theorem ret : Statement .ret := fun _ => by decide

end Sys2Proof.Laws.RoundTrip
end

