-- ==== Sys2Proof/Laws/StringLoop.lean ====
section
/-! SUPPORT. The string loop counted in operations: from one read of KBSR to the next, the loop that never ends, and what it
has written when it is cut (43_trap.md R119, R121, R126). -/

namespace Sys2Proof.Machine

/-- The way from `p` up to an address `q`, once round the address space at most. -/
theorem distance_to (p q : Word) : ∃ d, d < 65536 ∧ p + BitVec.ofNat 16 d = q :=
  ⟨(q - p).toNat, (q - p).isLt, by rw [BitVec.ofNat_toNat, BitVec.setWidth_eq, BitVec.add_comm, BitVec.sub_add_cancel]⟩

/-- A Word gives at least one code, and at most two (R119, R121). -/
theorem StringForm.codes_length (f : StringForm) (w : Word) : 1 ≤ (f.codes w).length ∧ (f.codes w).length ≤ 2 := by
  cases f with
  | puts => exact ⟨Nat.le_refl 1, Nat.le_succ 1⟩
  | putsp => simp only [StringForm.codes]; split <;> simp

/-- The operations of one whole Word: its read, then its codes. -/
theorem writeString_word (f : StringForm) (n : Nat) (p : Word) (s : State) (h : (memRead p s).1 ≠ 0x0000#16) :
    writeString f ((f.codes (memRead p s).1).length + n + 1) [] p s =
      writeString f n [] (p + 1#16) (writeChars (f.codes (memRead p s).1) (memRead p s).2) := by
  rw [writeString_succ _ _ _ _ h, writeString_codes]

/-- The `d` Words that lie before KBSR: the loop ends within them, or it reaches KBSR with the memory, the pending keys, the
held key and the cut it had, and all the Words on the way are non-zero. A Word is at most three operations. -/
theorem writeString_to_status (f : StringForm) (d : Nat) : ∀ (p : Word) (s : State),
    p + BitVec.ofNat 16 d = Config.kbsr → d < 65536 →
    (writeString f (3 * d) [] p s).hold = none ∨
    (∃ (s' : State) (n : Nat), n ≤ 3 * d ∧ s'.mem = s.mem ∧ s'.keys = s.keys ∧ s'.heldKey = s.heldKey ∧
      (∀ i, i < d → s.mem.read (p + BitVec.ofNat 16 i) ≠ 0x0000#16) ∧
      ∀ m, writeString f (n + m) [] p s = writeString f m [] Config.kbsr s') := by
  induction d with
  | zero =>
    intro p s h _
    have hp : p = Config.kbsr := by simpa using h
    subst hp
    exact .inr ⟨s, 0, Nat.le_refl 0, rfl, rfl, rfl, by intro i hi; omega, by intro m; rw [Nat.zero_add]⟩
  | succ d ih =>
    intro p s h hd
    have hp : p ≠ Config.kbsr := by
      rintro rfl
      have h2 := congrArg BitVec.toNat h
      rw [BitVec.toNat_add, BitVec.toNat_ofNat, show Config.kbsr.toNat = 0xFE00 from rfl] at h2
      omega
    have hone : ∀ i, i < 65535 → (1#16 + BitVec.ofNat 16 i) = BitVec.ofNat 16 (i + 1) := by
      intro i hi
      apply BitVec.eq_of_toNat_eq
      simp [BitVec.toNat_add]; omega
    have hr := memRead_plain s hp
    by_cases hz : s.mem.read p = 0x0000#16
    · refine .inl ?_
      rw [show 3 * (d + 1) = (3 * d + 2) + 1 by omega, writeString_zero _ _ _ _ (by rw [hr]; exact hz)]; rfl
    · have hc := (f.codes_length (s.mem.read p)).2
      have hs : ∀ m, writeString f ((f.codes (s.mem.read p)).length + m + 1) [] p s =
          writeString f m [] (p + 1#16) (writeChars (f.codes (s.mem.read p)) s) := by
        intro m
        have := writeString_word f m p s (by rw [hr]; exact hz)
        rwa [hr] at this
      rcases ih (p + 1#16) (writeChars (f.codes (s.mem.read p)) s)
        (by rw [← h, BitVec.add_assoc, hone d (by omega)]) (by omega) with ht | ⟨s', n, hn, a, b, c, e, g⟩
      · refine .inl ?_
        rw [writeString_mono f (n := (f.codes (s.mem.read p)).length + 3 * d + 1) _ (by omega) _ _ _ (by rw [hs]; exact ht), hs]
        exact ht
      · refine .inr ⟨s', (f.codes (s.mem.read p)).length + n + 1, by omega, by simpa using a, by simpa using b,
          by simpa using c, ?_, fun m => ?_⟩
        · intro i hi
          rcases i with - | i
          · simpa using hz
          · have := e i (by omega)
            simp only [writeChars_mem] at this
            rwa [BitVec.add_assoc, hone i (by omega)] at this
        · rw [show (f.codes (s.mem.read p)).length + n + 1 + m = (f.codes (s.mem.read p)).length + (n + m) + 1 by omega, hs, g]

/-- With a key held down, its code in KBDR and no zero word anywhere but at KBSR, the loop never ends. -/
theorem writeString_forever (f : StringForm) (k : Word) (n : Nat) (cs : List Word) (p : Word) (s : State)
    (h1 : s.keys = []) (h2 : s.heldKey = some k) (w : s.mem.wf = true) (h3 : s.mem.read Config.kbdr = k)
    (h4 : ∀ a, a ≠ Config.kbsr → s.mem.read a ≠ 0x0000#16) : (writeString f n cs p s).hold ≠ none := by
  induction n, cs, p, s using writeString_induct f with
  | stop cs p s => rw [writeString_stop]; simp
  | code n c cs p s ih => rw [writeString_code]; exact ih h1 h2 w h3 h4
  | zero n p s h =>
    by_cases hp : p = Config.kbsr
    · subst hp
      rw [(memRead_status_next w (k := k) (rest := []) (.inr ⟨h1, h2, rfl⟩)).1] at h; cases h
    · rw [memRead_plain s hp] at h; exact absurd h (h4 p hp)
  | word n p s h ih =>
    rw [writeString_succ _ _ _ _ h]
    by_cases hp : p = Config.kbsr
    · subst hp
      obtain ⟨-, a2, a3, -⟩ := memRead_status_next w (k := k) (rest := []) (.inr ⟨h1, h2, rfl⟩)
      refine ih a3 (by simpa using h2) (memRead_wf _ _ w) a2 fun a ha => ?_
      by_cases hd : a = Config.kbdr
      · subst hd; rw [a2, ← h3]; exact h4 _ ha
      · rw [memRead_keeps _ _ a (by simp [ha, hd])]; exact h4 _ ha
    · rw [memRead_plain s hp] at ih ⊢
      exact ih h1 h2 w h3 h4

/-! ### The loop ends within `stringOps` operations, or it never ends (R126; log 11) -/

/-- The loop ends within `n` operations. -/
abbrev EndsWithin (f : StringForm) (n : Nat) (cs : List Word) (p : Word) (s : State) : Prop :=
  (writeString f n cs p s).hold = none

theorem EndsWithin.mono {f : StringForm} {n m : Nat} {cs : List Word} {p : Word} {s : State} (h : EndsWithin f n cs p s)
    (hle : n ≤ m) : EndsWithin f m cs p s := by
  unfold EndsWithin at *; rw [writeString_mono f m hle _ _ _ h]; exact h

/-- One lap begins: the read of KBSR that finds a key, and the codes of 0x8000. -/
theorem writeString_lap (f : StringForm) {s : State} {k : Word} {rest : List Word} (w : s.mem.wf = true) (h : NextKey k rest s)
    (m : Nat) : writeString f ((f.codes 0x8000#16).length + m + 1) [] Config.kbsr s =
      writeString f m [] (Config.kbsr + 1#16) (writeChars (f.codes 0x8000#16) (memRead Config.kbsr s).2) := by
  have := writeString_word f m Config.kbsr s (by rw [(memRead_status_next w h).1]; decide)
  rwa [(memRead_status_next w h).1] at this

/-- With no pending key: two laps are enough, or a held key keeps the loop going for ever. -/
theorem writeString_two_laps (f : StringForm) (p : Word) (s : State) (w : s.mem.wf = true) (hk : s.keys = []) :
    EndsWithin f (3 * (Config.memWords * 2)) [] p s ∨ (s.heldKey ≠ none ∧ ∀ n, ¬ EndsWithin f n [] p s) := by
  simp only [Config.memWords]
  obtain ⟨d, hd, hpd⟩ := distance_to p Config.kbsr
  rcases writeString_to_status f d p s hpd hd with ht | ⟨s', n0, hn0, a, b, c, -, g⟩
  · exact .inl (EndsWithin.mono ht (by omega))
  · have w' : s'.mem.wf = true := by rw [a]; exact w
    have c2 := (f.codes_length 0x8000#16).2
    cases hh : s.heldKey with
    | none =>
      obtain ⟨z, -⟩ := memRead_status_noKey (s := s') w' ⟨b.trans hk, c.trans hh⟩
      refine .inl (EndsWithin.mono (n := n0 + 1) ?_ (by omega))
      unfold EndsWithin; rw [g 1, writeString_zero _ _ _ _ z]; rfl
    | some k =>
      have nk : NextKey k [] s' := .inr ⟨b.trans hk, c.trans hh, rfl⟩
      obtain ⟨-, a2, a3, -⟩ := memRead_status_next w' nk
      have hlap := writeString_lap f w' nk
      generalize hs2 : writeChars (f.codes 0x8000#16) (memRead Config.kbsr s').2 = s2 at hlap
      rcases writeString_to_status f 65535 (Config.kbsr + 1#16) s2 (by decide) (by omega) with
        ht | ⟨s3, n3, hn3, b1, b2, b3, b4, b5⟩
      · refine .inl (EndsWithin.mono (n := n0 + ((f.codes 0x8000#16).length + 3 * 65535 + 1)) ?_ (by omega))
        unfold EndsWithin; rw [g, hlap]; exact ht
      · refine .inr ⟨by simp, fun n hn => ?_⟩
        have hnz : ∀ a, a ≠ Config.kbsr → s3.mem.read a ≠ 0x0000#16 := by
          intro a ha
          obtain ⟨i, hi, e⟩ := distance_to (Config.kbsr + 1#16) a
          have hne : i ≠ 65535 := by rintro rfl; exact ha (by rw [← e]; decide)
          have := b4 i (by omega)
          rwa [e, ← b1] at this
        have never := writeString_forever f k n [] Config.kbsr s3 (b2.trans (by rw [← hs2, writeChars_keys]; exact a3))
          (b3.trans (by rw [← hs2, writeChars_heldKey, memRead_heldKey]; exact c.trans hh))
          (by rw [b1, ← hs2, writeChars_mem]; exact memRead_wf _ _ w') (by rw [b1, ← hs2, writeChars_mem]; exact a2) hnz
        have := EndsWithin.mono (m := n0 + ((f.codes 0x8000#16).length + (n3 + n) + 1)) hn (by omega)
        unfold EndsWithin at this
        rw [g, hlap, b5] at this
        exact never this

/-- Each pending key is worth one lap more. -/
theorem writeString_laps (f : StringForm) (count : Nat) : ∀ (p : Word) (s : State), s.mem.wf = true → s.keys.length = count →
    EndsWithin f (3 * (Config.memWords * (count + 2))) [] p s ∨ (s.heldKey ≠ none ∧ ∀ n, ¬ EndsWithin f n [] p s) := by
  induction count with
  | zero => intro p s w h; exact writeString_two_laps f p s w (List.length_eq_zero_iff.mp h)
  | succ count ih =>
    intro p s w hl
    obtain ⟨k, rest, hk⟩ : ∃ k rest, s.keys = k :: rest := List.exists_cons_of_length_eq_add_one hl
    obtain ⟨d, hd, hpd⟩ := distance_to p Config.kbsr
    simp only [Config.memWords] at ih ⊢
    rcases writeString_to_status f d p s hpd hd with ht | ⟨s', n0, hn0, a, b, c, -, g⟩
    · exact .inl (EndsWithin.mono ht (by omega))
    · have w' : s'.mem.wf = true := by rw [a]; exact w
      have c2 := (f.codes_length 0x8000#16).2
      have nk : NextKey k rest s' := .inl (b.trans hk)
      obtain ⟨-, -, a3, -⟩ := memRead_status_next w' nk
      have hlap := writeString_lap f w' nk
      rcases ih (Config.kbsr + 1#16) (writeChars (f.codes 0x8000#16) (memRead Config.kbsr s').2)
        (by rw [writeChars_mem]; exact memRead_wf _ _ w')
        (by rw [writeChars_keys, a3]; rw [hk] at hl; simpa using hl) with ht | ⟨hx, hy⟩
      · refine .inl (EndsWithin.mono (n := n0 + ((f.codes 0x8000#16).length + 3 * (65536 * (count + 2)) + 1)) ?_ (by omega))
        unfold EndsWithin; rw [g, hlap]; exact ht
      · refine .inr ⟨by simpa [c] using hx, fun n hn => ?_⟩
        have := EndsWithin.mono (m := n0 + ((f.codes 0x8000#16).length + n + 1)) hn (by omega)
        unfold EndsWithin at this
        rw [g, hlap] at this
        exact hy n this

/-- The one fact about `stringOps`: it is enough, or a held key keeps the loop going for ever. -/
theorem stringOps_enough (f : StringForm) (cs : List Word) (p : Word) (s : State) (w : s.mem.wf = true) :
    EndsWithin f (stringOps cs s) cs p s ∨ (s.heldKey ≠ none ∧ ∀ n, ¬ EndsWithin f n cs p s) := by
  rcases writeString_laps f s.keys.length p (writeChars cs s) (by simpa using w) (by simp) with h | ⟨h1, h2⟩
  · left; unfold EndsWithin stringOps; rw [writeString_codes]; exact h
  · refine .inr ⟨by simpa using h1, fun n hn => h2 n ?_⟩
    have := EndsWithin.mono (m := cs.length + n) hn (by omega)
    unfold EndsWithin at this
    rwa [writeString_codes] at this

/-! ### Runs of the loop, and what is out when it is left -/

/-- Enough operations do a whole run of the loop. -/
theorem StringRun.ends {f : StringForm} {p : Word} {s t : State} (h : StringRun f.codes p s t) :
    ∃ n, writeString f n [] p s = t.setHold none := by
  induction h with
  | done p s h => exact ⟨1, writeString_zero _ _ _ _ h⟩
  | more p s t h rest ih =>
    obtain ⟨n, hn⟩ := ih
    exact ⟨(f.codes (memRead p s).1).length + n + 1, by rw [writeString_word _ _ _ _ h]; exact hn⟩

/-- Where the loop is left unfinished, some whole Words are done, and with the codes that are left the last of them is. -/
theorem writeString_part (f : StringForm) (n : Nat) (cs : List Word) (p : Word) (s : State) {cs' : List Word} {p' : Word}
    (h : (writeString f n cs p s).hold = some (.string f cs' p')) :
    ∃ t, StringPart f.codes p (writeChars cs s) p' t ∧
      writeChars cs' (writeString f n cs p s) = t.setHold (some (.string f cs' p')) := by
  induction n, cs, p, s using writeString_induct f with
  | stop cs p s =>
    rw [writeString_stop] at h ⊢
    obtain ⟨rfl, rfl⟩ : cs = cs' ∧ p = p' := by simpa using h
    exact ⟨_, .none p _, by simp only [writeChars_eq, State.setHold]⟩
  | code n c cs p s ih => rw [writeString_code] at h ⊢; exact ih h
  | zero n p s hz => rw [writeString_zero _ _ _ _ hz] at h; cases h
  | word n p s hz ih =>
    rw [writeString_succ _ _ _ _ hz] at h ⊢
    obtain ⟨t, ht, e⟩ := ih h
    exact ⟨t, .word p s p' t hz ht, e⟩

/-- At least every second operation of an unfinished loop writes a character. -/
theorem writeString_written (f : StringForm) (n : Nat) (cs : List Word) (p : Word) (s : State)
    (h : (writeString f n cs p s).hold ≠ none) :
    ∃ ev, (writeString f n cs p s).trace = s.trace ++ ev ∧ n ≤ 2 * (written ev).length + if cs = [] then 1 else 0 := by
  induction n, cs, p, s using writeString_induct f with
  | stop cs p s => rw [writeString_stop]; exact ⟨[], by simp, by omega⟩
  | code n c cs p s ih =>
    rw [writeString_code] at h ⊢
    obtain ⟨ev, e, hn⟩ := ih h
    refine ⟨.writeChar c :: ev, by rw [e]; simp [writeChar], ?_⟩
    rw [if_neg (by simp)]
    simp only [written, List.length_cons]
    split at hn <;> omega
  | zero n p s hz => rw [writeString_zero _ _ _ _ hz] at h; exact absurd rfl h
  | word n p s hz ih =>
    rw [writeString_succ _ _ _ _ hz] at h ⊢
    obtain ⟨ev, e, hn⟩ := ih h
    have hc : f.codes (memRead p s).1 ≠ [] := by
      intro hc
      have := (f.codes_length (memRead p s).1).1
      rw [hc] at this; cases this
    rw [if_neg hc] at hn
    rw [if_pos rfl, e]
    rcases memRead_trace s p with ht | ⟨k, ht⟩
    · exact ⟨ev, by rw [ht], by omega⟩
    · exact ⟨.pollKey k :: ev, by rw [ht]; simp, by simp only [written]; omega⟩

end Sys2Proof.Machine
end

