-- ==== Sys2Proof/Tests/Slice0.lean ====
section
/-! SUPPORT. Tests: words written out from the spec's encodings, single steps from the vectors of
95_test_vectors.md, the well-formedness smoke, and for every statement with hypotheses a state that meets them. -/

namespace Sys2Proof.Tests

open Sys2Proof Sys2Proof.Machine

/-! ### Helpers -/

/-- Memory with these cells written. -/
def cells : List (Nat × Word) → Memory
  | [] => []
  | c :: cs => (cells cs).write (BitVec.ofNat 16 c.1) c.2

/-- The reset state with these registers and these memory cells. -/
def start (regs : List (Reg × Word)) (mem : List (Nat × Word)) : State :=
  regs.foldl (fun s c => s.setReg c.1 c.2) { State.reset with mem := cells mem }

/-- `s` with this flag. -/
def flagged (c : Cond) (s : State) : State := s.setCond c

/-- `s` with these pending keys. -/
def typed (ks : List Word) (s : State) : State := s.setKeys ks

/-- The next state of an answer, if it has one. -/
def nextState : Result → Option State
  | .next t => some t
  | .fault _ => none
  | .refused _ => none

/-- What `view` sees after one step that runs the word `w` at PC; none if the step stops. -/
def after {α : Type} (w : Nat) (s : State) (view : State → α) : Option α :=
  (nextState (step (s.withFetchWord 16 w))).map view

/-! ### Well-formedness refuses an ill-formed term (R74) -/

theorem test_wellFormed_refuses_jmp_r7 : (Instr.jmp .r7).wellFormed = false := by decide
theorem test_wellFormed_refuses_trap_x20 : (Instr.trap 0x20#8).wellFormed = false := by decide
theorem test_wellFormed_refuses_trap_x25 : (Instr.trap 0x25#8).wellFormed = false := by decide
theorem test_wellFormed_accepts_neighbours :
    (Instr.jmp .r6).wellFormed = true ∧ (Instr.trap 0x1F#8).wellFormed = true ∧ (Instr.trap 0x26#8).wellFormed = true := by
  decide

/-! ### Decoding: words written out bit by bit from the formats of R63 and the numbers of R62 -/

theorem test_decode_br : decode 0b0000_010_000000101#16 = .br false true false 5#9 := by decide
theorem test_decode_br_mask_order : decode 0b0000_100_011111111#16 = .br true false false 255#9 := by decide
theorem test_decode_add : decode 0b0001_010_000_0_00_001#16 = .add .r2 .r0 .r1 := by decide
theorem test_decode_add_ignored_bits : decode 0b0001_000_000_0_11_000#16 = .add .r0 .r0 .r0 := by decide
theorem test_decode_addImm : decode 0b0001_001_001_1_11111#16 = .addImm .r1 .r1 31#5 := by decide
theorem test_decode_ld : decode 0b0010_001_000000010#16 = .ld .r1 2#9 := by decide
theorem test_decode_st : decode 0b0011_001_100000000#16 = .st .r1 256#9 := by decide
theorem test_decode_jsr : decode 0b0100_1_10000000000#16 = .jsr 1024#11 := by decide
theorem test_decode_jsrr : decode 0b0100_0_00_011_000000#16 = .jsrr .r3 := by decide
theorem test_decode_jsrr_ignored_bits : decode 0b0100_0_11_011_111111#16 = .jsrr .r3 := by decide
theorem test_decode_and : decode 0b0101_010_000_0_00_001#16 = .and .r2 .r0 .r1 := by decide
theorem test_decode_andImm : decode 0b0101_001_010_1_10000#16 = .andImm .r1 .r2 16#5 := by decide
theorem test_decode_ldr : decode 0b0110_001_010_111111#16 = .ldr .r1 .r2 63#6 := by decide
theorem test_decode_str : decode 0b0111_001_010_000011#16 = .str .r1 .r2 3#6 := by decide
theorem test_decode_rti : decode 0b1000_101010111100#16 = .rti 0xABC#12 := by decide
theorem test_decode_not : decode 0b1001_001_010_111111#16 = .not .r1 .r2 := by decide
theorem test_decode_not_ignored_bits : decode 0b1001_000_000_000000#16 = .not .r0 .r0 := by decide
theorem test_decode_ldi : decode 0b1010_010_000000001#16 = .ldi .r2 1#9 := by decide
theorem test_decode_sti : decode 0b1011_001_000000001#16 = .sti .r1 1#9 := by decide
theorem test_decode_jmp : decode 0b1100_000_011_000000#16 = .jmp .r3 := by decide
theorem test_decode_ret : decode 0b1100_000_111_000000#16 = .ret := by decide
theorem test_decode_ret_ignored_bits : decode 0b1100_111_111_111111#16 = .ret := by decide
theorem test_decode_res : decode 0b1101_111111111111#16 = .res 0xFFF#12 := by decide
theorem test_decode_lea : decode 0b1110_000_000000010#16 = .lea .r0 2#9 := by decide
theorem test_decode_trap : decode 0b1111_0000_00100110#16 = .trap 0x26#8 := by decide
theorem test_decode_getc : decode 0b1111_0000_00100000#16 = .getc := by decide
theorem test_decode_out : decode 0b1111_0000_00100001#16 = .out := by decide
theorem test_decode_puts : decode 0b1111_0000_00100010#16 = .puts := by decide
theorem test_decode_in : decode 0b1111_0000_00100011#16 = .in_ := by decide
theorem test_decode_putsp : decode 0b1111_0000_00100100#16 = .putsp := by decide
theorem test_decode_halt : decode 0b1111_0000_00100101#16 = .halt := by decide
theorem test_decode_halt_ignored_bits : decode 0b1111_1111_00100101#16 = .halt := by decide

theorem test_decodeTableWord_halt : decodeTableWord 16 0xF025 = some .halt := by decide

/-! ### Single steps, from the vectors of 95_test_vectors.md sections 2 and 4 -/

/-- Section 4.1, no trap, wraps to negative. -/
theorem test_add_signed_overflow : after 0x1401 (start [(.r0, 0x7FFF#16), (.r1, 1#16)] [])
    (fun t => (t.reg .r2, t.cond, t.pc)) = some (0x8000#16, .n, 0x3001#16) := by decide

/-- Section 4.1, the carry is discarded. -/
theorem test_add_carry_out : after 0x1401 (start [(.r0, 0xFFFF#16), (.r1, 1#16)] [])
    (fun t => (t.reg .r2, t.cond, t.reg .r0)) = some (0x0000#16, .z, 0xFFFF#16) := by decide

/-- S6. -/
theorem test_addImm_scenario_a : after 0x1025 (start [] [])
    (fun t => (t.reg .r0, t.cond, t.pc)) = some (5#16, .p, 0x3001#16) := by decide

/-- Section 4.1, the least immediate, on its own register. -/
theorem test_addImm_least : after 0x1270 (start [(.r1, 0x10#16)] [])
    (fun t => (t.reg .r1, t.cond)) = some (0x0000#16, .z) := by decide

/-- Section 4.2. -/
theorem test_and : after 0x5401 (start [(.r0, 0xF0F0#16), (.r1, 0x3C3C#16)] [])
    (fun t => (t.reg .r2, t.cond)) = some (0x3030#16, .p) := by decide

/-- Section 4.2, the immediate keeps the high bits. -/
theorem test_andImm_negative : after 0x52B0 (start [(.r2, 0xABCD#16)] [])
    (fun t => (t.reg .r1, t.cond)) = some (0xABC0#16, .n) := by decide

/-- Section 4.3. -/
theorem test_not_in_place : after 0x927F (start [(.r1, 0x00FF#16)] [])
    (fun t => (t.reg .r1, t.cond)) = some (0xFF00#16, .n) := by decide

/-- S9, a branch to itself. -/
theorem test_br_scenario_d : after 0x0FFF (flagged .p (start [] []))
    (fun t => (t.pc, t.cond)) = some (0x3000#16, .p) := by decide

/-- Section 4.4, no flag is set: not taken even with mask 111. -/
theorem test_br_no_flag : after 0x0FFF (start [] [])
    (fun t => (t.pc, t.cond)) = some (0x3001#16, .none) := by decide

/-- Section 4.5. -/
theorem test_jmp : after 0xC0C0 (start [(.r3, 0x4000#16)] [])
    (fun t => (t.pc, t.reg .r7)) = some (0x4000#16, 0x0000#16) := by decide

/-- Section 4.5. -/
theorem test_ret : after 0xC1C0 (start [(.r7, 0x3456#16)] [])
    (fun t => (t.pc, t.reg .r7)) = some (0x3456#16, 0x3456#16) := by decide

/-- Section 4.5, the least offset. -/
theorem test_jsr_least : after 0x4C00 (start [] [])
    (fun t => (t.reg .r7, t.pc)) = some (0x3001#16, 0x2C01#16) := by decide

/-- Section 4.5, a call to itself. -/
theorem test_jsr_self : after 0x4FFF (start [] [])
    (fun t => (t.reg .r7, t.pc)) = some (0x3001#16, 0x3000#16) := by decide

/-- Section 4.5. -/
theorem test_jsrr : after 0x40C0 (start [(.r3, 0x5000#16)] [])
    (fun t => (t.reg .r7, t.pc)) = some (0x3001#16, 0x5000#16) := by decide

/-- Section 4.5, R7 is written before BaseR is read. -/
theorem test_jsrr_r7 : after 0x41C0 (start [(.r7, 0x5000#16)] [])
    (fun t => (t.reg .r7, t.pc)) = some (0x3001#16, 0x3001#16) := by decide

/-- Section 4.6. -/
theorem test_ld : after 0x2202 (start [] [(0x3003, 0x8001#16)])
    (fun t => (t.reg .r1, t.cond)) = some (0x8001#16, .n) := by decide

/-- Section 4.6, offset -1 loads the instruction. -/
theorem test_ld_itself : after 0x23FF (start [] [])
    (fun t => (t.reg .r1, t.cond)) = some (0x23FF#16, .p) := by decide

/-- Section 4.7. -/
theorem test_ldi : after 0xA401 (start [] [(0x3002, 0x4000#16), (0x4000, 0xBEEF#16)])
    (fun t => (t.reg .r2, t.cond)) = some (0xBEEF#16, .n) := by decide

/-- Section 4.7, a KBSR poll with a key pending. -/
theorem test_ldi_status : after 0xA001 (typed [0x61#16] (start [] [(0x3002, 0xFE00#16)]))
    (fun t => (t.reg .r0, t.cond, t.mem.read 0xFE00#16, t.mem.read 0xFE02#16, t.keys)) = some (0x8000#16, .n, 0x8000#16, 0x61#16, []) := by decide

/-- Section 4.8, offset -1. -/
theorem test_ldr : after 0x62BF (start [(.r2, 0x4001#16)] [(0x4000, 0x1234#16)])
    (fun t => (t.reg .r1, t.cond)) = some (0x1234#16, .p) := by decide

/-- Section 4.8, one poll takes one key. -/
theorem test_ldr_status : after 0x6040 (typed [0x41#16, 0x42#16] (start [(.r1, 0xFE00#16)] []))
    (fun t => (t.reg .r0, t.mem.read 0xFE02#16, t.keys)) = some (0x8000#16, 0x41#16, [0x42#16]) := by decide

/-- P3, step 1. -/
theorem test_lea : after 0xE002 (start [] [])
    (fun t => (t.reg .r0, t.cond, t.pc)) = some (0x3003#16, .p, 0x3001#16) := by decide

/-- Q4, the store lands on the next instruction. -/
theorem test_st_next_fetch : after 0x3200 (start [(.r1, 0xF025#16)] [])
    (fun t => (t.mem.read 0x3001#16, t.pc, t.cond)) = some (0xF025#16, 0x3001#16, .none) := by decide

/-- Section 4.11. -/
theorem test_sti : after 0xB201 (start [(.r1, 0x7777#16)] [(0x3002, 0x5000#16)])
    (fun t => (t.mem.read 0x5000#16, t.mem.read 0x3002#16, t.cond)) = some (0x7777#16, 0x5000#16, .none) := by decide

/-- Section 4.11, a store to KBSR is plain and takes no key. -/
theorem test_sti_status : after 0xB201 (typed [0x61#16] (start [(.r1, 0x1234#16)] [(0x3002, 0xFE00#16)]))
    (fun t => (t.mem.read 0xFE00#16, t.mem.read 0xFE02#16, t.keys)) = some (0x1234#16, 0x0000#16, [0x61#16]) := by decide

/-- Section 4.12. -/
theorem test_str : after 0x7283 (start [(.r1, 0xAAAA#16), (.r2, 0x4000#16)] [])
    (fun t => (t.mem.read 0x4003#16, t.cond)) = some (0xAAAA#16, .none) := by decide

/-- Section 4.12, the address wraps below 0. -/
theorem test_str_wraps : after 0x72A0 (start [(.r1, 0xAAAA#16), (.r2, 0x0010#16)] [])
    (fun t => (t.mem.read 0xFFF0#16, t.reg .r2)) = some (0xAAAA#16, 0x0010#16) := by decide

/-- Section 4.13, only R7 and PC change. -/
theorem test_trap_undefined : after 0xF000 (start [(.r7, 0xAAAA#16)] [])
    (fun t => (t.reg .r7, t.pc, t.cond, t.trace)) = some (0x3001#16, 0x3001#16, .none, []) := by decide

/-- Section 4.13, the whole key Word, COND not written. -/
theorem test_getc : after 0xF020 (typed [0x80FF#16, 0x62#16] (flagged .z (start [] [])))
    (fun t => (t.reg .r0, t.reg .r7, t.cond, t.keys)) = some (0x80FF#16, 0x3001#16, .z, [0x62#16]) := by decide

/-- Q2, no key: R7 and PC are written and the trap waits. -/
theorem test_getc_waits : after 0xF020 (start [(.r0, 0x1111#16)] [])
    (fun t => (t.reg .r0, t.reg .r7, t.pc, t.hold)) = some (0x1111#16, 0x3001#16, 0x3001#16, some .getc) := by decide

/-- Section 4.13, the whole Word. -/
theorem test_out : after 0xF021 (start [(.r0, 0x1241#16)] [])
    (fun t => (t.trace, t.reg .r7)) = some ([.writeChar 0x1241#16], 0x3001#16) := by decide

/-- S8. -/
theorem test_puts_scenario_c : after 0xF022 (start [(.r0, 0x4000#16)] [(0x4000, 0x48#16), (0x4001, 0x49#16)])
    (fun t => (t.trace, t.reg .r0, t.reg .r7)) = some ([.writeChar 0x48#16, .writeChar 0x49#16], 0x4000#16, 0x3001#16) := by decide

/-- Q9, the string runs into KBSR with no key pending. -/
theorem test_puts_meets_status : after 0xF022 (start [(.r0, 0xFDFF#16)] [(0xFDFF, 0x41#16), (0xFE00, 0x7#16)])
    (fun t => (t.trace, t.mem.read 0xFE00#16)) = some ([.writeChar 0x41#16, .pollKey none], 0x0000#16) := by decide

/-- Section 4.13, a high byte of 0 is not written. -/
theorem test_putsp : after 0xF024 (start [(.r0, 0x4000#16)] [(0x4000, 0x6548#16), (0x4001, 0x006F#16)])
    (fun t => (t.trace)) = some ([.writeChar 0x48#16, .writeChar 0x65#16, .writeChar 0x6F#16]) := by decide

/-- Section 4.13, a low byte of 0 is written. -/
theorem test_putsp_low_byte_zero : after 0xF024 (start [(.r0, 0x4000#16)] [(0x4000, 0x4100#16)])
    (fun t => (t.trace)) = some ([.writeChar 0x0000#16, .writeChar 0x41#16]) := by decide

/-- S7, with R7 as C2 has it. -/
theorem test_halt_scenario_b : after 0xF025 (start [] [])
    (fun t => (t.run, t.reg .r7, t.pc, t.trace)) = some (.halted, 0x3001#16, 0x3001#16, []) := by decide

/-- Section 4.14, a diagnostic and nothing else. -/
theorem test_rti : after 0x8ABC (start [(.r7, 0x1234#16)] [])
    (fun t => (t.trace, t.pc, t.reg .r7)) = some ([.invalidOpcode 0x3000#16 0x8ABC#16], 0x3001#16, 0x1234#16) := by decide

/-- Section 4.14. -/
theorem test_res : after 0xDFFF (flagged .p (start [] []))
    (fun t => (t.trace, t.pc, t.cond)) = some ([.invalidOpcode 0x3000#16 0xDFFF#16], 0x3001#16, .p) := by decide

/-- What `view` sees after IN, whose prompt is a free value: run with the spec's default prompt (D11). -/
def afterIn {α : Type} (s : State) (view : State → α) : α := view (inRoutineWith Config.defaultInPrompt (trapEntry s))

/-- Section 4.13, IN: prompt, key, echo, flags. -/
theorem test_in : afterIn (typed [0x79#16] (start [] []))
    (fun t => (t.reg .r0, t.cond, t.trace.length, t.trace.getLast?)) =
      (0x79#16, .p, 21, some (.writeChar 0x79#16)) := by decide

/-- Q3, no key: the prompt is out before the wait. -/
theorem test_in_waits : afterIn (start [] []) (fun t => (t.hold, t.trace.length, t.trace.head?)) =
    (some (.in_ []), 19, some (.writeChar 0x45#16)) := by decide

/-- R163: the environment cuts the prompt after its first character (section 4.13's `E`). -/
theorem test_in_prompt_cut : afterIn ((start [] []).setCut (some 1)) (fun t => (t.trace, t.reg .r7, t.hold)) =
    ([.writeChar 0x45#16], 0x3000#16, some (.in_ (Config.defaultInPrompt.drop 1))) := by decide

/-! ### The step, the environment, the loader -/

/-- Q1, a HALTED unit takes no step. -/
theorem test_halted_stays : step (start [] []).setHalted = .next (start [] []).setHalted := rfl

/-- Q10, a fetch from KBSR with a key pending fetches 0x8000. -/
theorem test_fetch_status : (fetch (typed [0x61#16] ((start [] []).setPc 0xFE00#16))).1 = 0x8000#16 ∧
    (fetch (typed [0x61#16] ((start [] []).setPc 0xFE00#16))).2.pc = 0xFE01#16 := by decide

/-- S8's string, cut by the environment after its first character, and then what `turn` does. -/
def cutString (turn : List EnvAction) : State :=
  { (start [(.r0, 0x4000#16)] [(0x4000, 0x48#16), (0x4001, 0x49#16), (0x3000, 0xF022#16)]) with script := [[.cut 2], turn] }

/-- R163: what was written before the cut is out, and an abort then ends the run. -/
theorem test_puts_cut_then_abort : (nextState (step (cutString [.abort]))).map
    (fun t => (t.trace, t.reg .r7, nextState (step t))) = some ([.writeChar 0x48#16], 0x3001#16, none) := by decide

/-- With no abort the next step writes the rest. -/
theorem test_puts_cut_then_rest : ((nextState (step (cutString []))).bind (nextState ∘ step)).map
    (fun u => (u.trace, u.pc, u.hold)) = some ([.writeChar 0x48#16, .writeChar 0x49#16], 0x3001#16, none) := by decide

/-- Q2, an abort while GETC waits. -/
theorem test_abort_while_waiting :
    step (((start [] []).setHold (some .getc)).setScript [[.abort]]) = .fault .aborted := rfl

/-- Loading no image and starting at 0x3000 is the reset state (R166). -/
theorem test_boot_empty_is_reset : boot 0x3000#16 0x3000#16 [] = .next State.reset := by rfl

/-- Section 7, `30 00 10 25 F0`: the odd trailing byte is dropped. -/
theorem test_image_trailing_byte :
    parseImage [0x30#8, 0x00#8, 0x10#8, 0x25#8, 0xF0#8] = some (0x3000#16, [0x1025#16]) := by decide

/-- R171: an image that covers KBSR with a non-zero word is refused. -/
theorem test_image_refused_over_status : imageOk 0xFE00#16 [1#16] = false := by decide

/-! ### Witnesses: for each statement with hypotheses, states and operands that meet them, each clause at its ends -/

/-- The reset state. -/
def base : State := start [] []

/-- One key waits in the console. -/
def oneKey : State := typed [0x61#16] base

/-- No key waits, but one is held down. -/
def heldDown : State := base.setHeldKey (some 0x61#16)

theorem noKey_base : NoKey base := ⟨rfl, rfl⟩
theorem nextKey_oneKey : NextKey 0x61#16 [] oneKey := .inl rfl
theorem nextKey_heldDown : NextKey 0x61#16 [] heldDown := .inr ⟨rfl, rfl, rfl⟩

/-- IN with its key, and IN that waits. -/
theorem in_oneKey : exec .in_ oneKey =
    .next (finishIn 0x61#16 (((writeChars Config.inPrompt (trapEntry oneKey)).setKeys []).emit (.readKey 0x61#16))) := by
  rw [exec_in_, inRoutine, inRoutineWith_whole rfl, inRead_next (k := 0x61#16) (rest := []) 1
    (by simpa [NextKey] using nextKey_oneKey)]; rfl

theorem in_base : exec .in_ base = .next ((writeChars Config.inPrompt (trapEntry base)).setHold (some (.in_ []))) := by
  rw [exec_in_, inRoutine, inRoutineWith_whole rfl, inRead_noKey 1 (by simpa [NoKey] using noKey_base)]

/-- Section 3: the ends of each width. -/
theorem witness_SignExtensionFollowsR6 : (∀ n, n ∈ [5, 6, 9, 11] → n = 5 ∨ n = 6 ∨ n = 9 ∨ n = 11) ∧
    sext 0x0F#5 = 0x000F#16 ∧ sext 0x10#5 = 0xFFF0#16 ∧ sext 0x1F#6 = 0x001F#16 ∧ sext 0x20#6 = 0xFFE0#16 ∧
    sext 0x0FF#9 = 0x00FF#16 ∧ sext 0x100#9 = 0xFF00#16 ∧ sext 0x3FF#11 = 0x03FF#16 ∧ sext 0x400#11 = 0xFC00#16 := by
  decide

theorem witness_OnlyListedInstructionsUseCond :
    (∃ t, exec (.lea .r0 1#9) base = .next t ∧ condDest (.lea .r0 1#9) = some .r0) ∧
    (∃ t, exec .in_ oneKey = .next t ∧ isIn .in_ ∧ t.hold = none) ∧
    (∃ t, exec .in_ base = .next t ∧ isIn .in_ ∧ t.hold ≠ none) ∧
    (∃ t, exec .getc oneKey = .next t ∧ condDest .getc = none ∧ ¬ isIn .getc) ∧
    (∃ t, exec (.st .r0 0#9) base = .next t ∧ isBr (.st .r0 0#9) = false) := by
  refine ⟨⟨_, rfl, rfl⟩, ⟨_, in_oneKey, .inl rfl, rfl⟩, ⟨_, in_base, .inl rfl, by simp⟩, ⟨_, rfl, rfl, by simp [isIn]⟩,
    ⟨_, rfl, rfl⟩⟩

/-- The two sides of the mask: a flag it names and one it does not. -/
theorem witness_BranchTakenByMask : (true = true ∧ (flagged .n base).cond = .n) ∧ (flagged .z base).cond ≠ .n := by decide

theorem witness_LdLoadsFromPcRelative : base.mem.wf = true ∧ pcRelative base 0#9 ≠ Config.kbsr ∧
    pcRelative (oneKey.setPc 0xFDFF#16) 1#9 = Config.kbsr ∧ NextKey 0x61#16 [] (oneKey.setPc 0xFDFF#16) ∧
    pcRelative (base.setPc 0xFDFF#16) 1#9 = Config.kbsr ∧ NoKey (base.setPc 0xFDFF#16) :=
  ⟨rfl, by decide, by decide, nextKey_oneKey, by decide, noKey_base⟩

theorem witness_LdiLoadsThroughPointer :
    (start [] [(0x3000, 0xFE00#16)]).mem.wf = true ∧ pcRelative (start [] [(0x3000, 0xFE00#16)]) 0#9 ≠ Config.kbsr ∧
    (memRead 0x3000#16 (start [] [(0x3000, 0xFE00#16)])).1 = Config.kbsr ∧ NoKey (start [] [(0x3000, 0xFE00#16)]) ∧
    NextKey 0x61#16 [] (typed [0x61#16] (start [] [(0x3000, 0xFE00#16)])) :=
  ⟨by decide, by decide +kernel, by decide +kernel, ⟨rfl, rfl⟩, .inl rfl⟩

theorem witness_LdrLoadsFromBaseOffset : base.mem.wf = true ∧ baseOffset base .r1 31#6 ≠ Config.kbsr ∧
    baseOffset (oneKey.setReg .r1 0xFE20#16) .r1 32#6 = Config.kbsr ∧ NextKey 0x61#16 [] (oneKey.setReg .r1 0xFE20#16) ∧
    NoKey (base.setReg .r1 0xFE20#16) :=
  ⟨rfl, by decide, by decide, nextKey_oneKey, noKey_base⟩

theorem witness_StStoresAtPcRelative : base.mem.wf = true := rfl

theorem witness_StiStoresThroughPointer : base.mem.wf = true ∧ pcRelative base 0#9 ≠ Config.kbsr ∧
    pcRelative (oneKey.setPc 0xFDFF#16) 1#9 = Config.kbsr ∧ NextKey 0x61#16 [] (oneKey.setPc 0xFDFF#16) ∧
    NoKey (base.setPc 0xFDFF#16) :=
  ⟨rfl, by decide, by decide, nextKey_oneKey, noKey_base⟩

theorem witness_StrStoresAtBaseOffset : base.mem.wf = true := rfl

/-- S4, after STI's fetch. -/
def sti1 : State := (start [(.r1, 0x7777#16)] [(0x3002, 0x5000#16)]).setPc 0x3001#16

theorem witness_StiThenLdiRoundTrip : sti1.mem.wf = true ∧
    pcRelative sti1 1#9 = pcRelative (sti1.setPc (sti1.pc + 1#16)) 0#9 ∧ pcRelative sti1 1#9 ≠ Config.kbsr ∧
    sti1.mem.read (pcRelative sti1 1#9) ≠ Config.kbsr ∧ sti1.mem.read (pcRelative sti1 1#9) ≠ pcRelative sti1 1#9 ∧
    ∃ t u, exec (.sti .r1 1#9) sti1 = .next t ∧ exec (.ldi .r2 0#9) (t.setPc (t.pc + 1#16)) = .next u :=
  ⟨by decide, by decide +kernel, by decide +kernel, by decide +kernel, by decide +kernel, _, _, rfl, rfl⟩

theorem witness_TrapDispatchesOnVector : definedVector 0x1F#8 = false ∧ definedVector 0x20#8 = true ∧
    definedVector 0x25#8 = true ∧ definedVector 0x26#8 = false := by decide

theorem witness_UndefinedVectorOnlyLinks : (0x00#8).toNat ≤ 0x1F ∧ (0x1F#8).toNat ≤ 0x1F ∧ 0x26 ≤ (0x26#8).toNat ∧
    0x26 ≤ (0xFF#8).toNat := by decide

theorem witness_GetcTakesPendingKey : NextKey 0x61#16 [] oneKey ∧ NextKey 0x61#16 [] heldDown :=
  ⟨nextKey_oneKey, nextKey_heldDown⟩

theorem witness_InPromptsReadsAndEchoes : (NextKey 0x61#16 [] oneKey ∧ oneKey.cut = none) ∧
    (NextKey 0x61#16 [] heldDown ∧ heldDown.cut = none) := ⟨⟨nextKey_oneKey, rfl⟩, nextKey_heldDown, rfl⟩

theorem witness_GetcAndInWaitForKey : NoKey base ∧ base.cut = none := ⟨noKey_base, rfl⟩

/-- GETC waits with no key, and so does IN; then the environment has these turns. -/
def getcWaits (ts : List (List EnvAction)) : State := (base.setHold (some .getc)).setScript ts
def inWaits (ts : List (List EnvAction)) : State := (base.setHold (some (.in_ []))).setScript ts

/-- One step: no key, then the key in the very turn, and for IN with a cut at each end of its clause; the echo that a cut
leaves. -/
theorem witness_WaitEndsWithTheKey :
    (∃ s', (getcWaits []).run = .running ∧ WaitsForKey (getcWaits []) ∧ environmentTurn (getcWaits []) = some s' ∧ NoKey s') ∧
    (∃ s', WaitsForKey (getcWaits [[.press 0x61#16, .cut 0]]) ∧
      environmentTurn (getcWaits [[.press 0x61#16, .cut 0]]) = some s' ∧ NextKey 0x61#16 [] s') ∧
    (∃ s', WaitsForKey (inWaits [[.holdDown 0x61#16]]) ∧ environmentTurn (inWaits [[.holdDown 0x61#16]]) = some s' ∧
      NextKey 0x61#16 [] s' ∧ ∀ n, s'.cut = some n → 2 ≤ n) ∧
    (∃ s', environmentTurn (inWaits [[.press 0x61#16, .cut 2]]) = some s' ∧ NextKey 0x61#16 [] s' ∧
      ∀ n, s'.cut = some n → 2 ≤ n) ∧
    (∃ s', environmentTurn (inWaits [[.press 0x61#16, .cut 0]]) = some s' ∧ NextKey 0x61#16 [] s' ∧ s'.cut = some 0) ∧
    (∃ s' t t', (inWaits [[.press 0x61#16, .cut 1]]).run = .running ∧ WaitsForKey (inWaits [[.press 0x61#16, .cut 1]]) ∧
      environmentTurn (inWaits [[.press 0x61#16, .cut 1]]) = some s' ∧ NextKey 0x61#16 [] s' ∧ s'.cut = some 1 ∧
      step (inWaits [[.press 0x61#16, .cut 1]]) = .next t ∧ environmentTurn (t.setScript [[.cut 1]]) = some t' ∧
      t'.cut ≠ some 0) :=
  ⟨⟨_, rfl, .inl rfl, rfl, rfl, rfl⟩, ⟨_, .inl rfl, rfl, .inl rfl⟩, ⟨_, .inr rfl, rfl, .inr ⟨rfl, rfl, rfl⟩, by simp [inWaits]⟩,
    ⟨_, rfl, .inl rfl, fun n h => by cases h; decide⟩, ⟨_, rfl, .inl rfl, rfl⟩,
    ⟨_, _, _, rfl, .inr rfl, rfl, .inl rfl, rfl, rfl, rfl, by decide⟩⟩

/-- The run: no step and two steps without a key, beyond the script's end too, and then keys, or an abort. -/
theorem witness_WaitEndsWithTheKey_run :
    (NoKey (inWaits [[.press 0x61#16, .press 0x62#16]]) ∧
      (inWaits [[.press 0x61#16, .press 0x62#16]]).script[0]? = some ([0x61#16, 0x62#16].map .press)) ∧
    (NoKey (getcWaits [[.cut 1], [.release], [.press 0x61#16, .abort]]) ∧
      (∀ turn, turn ∈ (getcWaits [[.cut 1], [.release], [.press 0x61#16, .abort]]).script.take 2 → GivesNoKey turn) ∧
      ∃ turn, (getcWaits [[.cut 1], [.release], [.press 0x61#16, .abort]]).script[2]? = some turn ∧ EnvAction.abort ∈ turn) ∧
    (NoKey (getcWaits []) ∧ ∀ turn, turn ∈ (getcWaits []).script.take 9 → GivesNoKey turn) := by
  refine ⟨⟨⟨rfl, rfl⟩, rfl⟩, ⟨⟨rfl, rfl⟩, ?_, _, rfl, by decide⟩, ⟨rfl, rfl⟩, by simp [getcWaits]⟩
  simp [getcWaits, GivesNoKey]

/-- S8's string, across the top of the address space. -/
def hiString : State := start [(.r0, 0xFFFF#16)] [(0xFFFF, 0x48#16), (0x0000, 0x49#16)]

theorem witness_PutsWritesString : StringAt hiString (hiString.reg .r0) [0x48#16, 0x49#16] ∧ hiString.cut = none ∧
    StringAt base (base.reg .r0) [] ∧ base.cut = none := by
  simp only [StringAt]; decide

theorem witness_PutspWritesPackedString : StringAt hiString (hiString.reg .r0) [0x48#16, 0x49#16] ∧ hiString.cut = none ∧
    StringAt base (base.reg .r0) [] ∧ base.cut = none := witness_PutsWritesString

/-- Each clause at the ends of its range: no operation done, and all but the read of the zero Word; IN before its prompt, and
between its key and its echo. -/
theorem witness_CutStringShowsItsBeginning :
    (StringAt hiString (hiString.reg .r0) [0x48#16, 0x49#16] ∧ hiString.run = .running) ∧
    ((hiString.setCut (some 0)).cut = some 0 ∧ 0 ≤ 2 * [0x48#16, 0x49#16].length) ∧
    ((hiString.setCut (some 4)).cut = some 4 ∧ 4 ≤ 2 * [0x48#16, 0x49#16].length) ∧
    ((base.setCut (some 0)).cut = some 0 ∧ 0 ≤ Config.inPrompt.length) ∧
    ((oneKey.setCut (some (Config.inPrompt.length + 1))).cut = some (Config.inPrompt.length + 1) ∧
      NextKey 0x61#16 [] (oneKey.setCut (some (Config.inPrompt.length + 1)))) ∧
    [0x48#16, 0x49#16].flatMap StringForm.putsp.codes = [0x48#16, 0x49#16] :=
  ⟨⟨witness_PutsWritesString.1, rfl⟩, ⟨rfl, by decide⟩, ⟨rfl, by decide⟩, ⟨rfl, Nat.zero_le _⟩, ⟨rfl, nextKey_oneKey⟩,
    by decide⟩

/-- The turn in which the environment cuts in: it gives a key, or it does not. -/
theorem witness_CutStringShowsItsBeginning_turn : ∃ t, exec .in_ (base.setCut (some 0)) = .next t ∧
    (∃ t', environmentTurn (t.setScript [[.press 0x61#16]]) = some t' ∧ t'.cut = none ∧ NextKey 0x61#16 [] t') ∧
    ∃ t', environmentTurn (t.setScript []) = some t' ∧ t'.cut = none ∧ NoKey t' :=
  ⟨(trapEntry (base.setCut (some 0))).setHold (some (.in_ Config.inPrompt)), congrArg _ (inFrom_stop _ _),
    ⟨_, rfl, rfl, .inl rfl⟩, _, rfl, rfl, rfl, rfl⟩

/-- Every word of the address space holds 1, from `lo` up. -/
def ones : Nat → Nat → Memory
  | _, 0 => []
  | lo, n + 1 => (lo, 1#16) :: ones (lo + 1) n

theorem ones_wfFrom (n : Nat) : ∀ lo, lo + n ≤ 65536 → Memory.wfFrom lo (ones lo n) = true := by
  induction n with
  | zero => intro lo _; rfl
  | succ n ih =>
    intro lo h
    simp only [ones, Memory.wfFrom, Bool.and_eq_true, decide_eq_true_eq]
    exact ⟨⟨⟨Nat.le_refl _, by simp only [Config.memWords]; omega⟩, by decide⟩, ih _ (by omega)⟩

theorem ones_lookup (n : Nat) : ∀ lo a, lo ≤ a → a < lo + n → (ones lo n).lookup a = 1#16 := by
  induction n with
  | zero => intro lo a h h'; omega
  | succ n ih =>
    intro lo a h h'
    simp only [ones, Memory.lookup]
    split
    · rfl
    · exact ih _ _ (by omega) (by omega)

/-- A string with no end: no word is zero, and the console always has the key 1. -/
def endless : State := { base with mem := ones 0 65536, heldKey := some 1#16 }

theorem endless_wf : endless.mem.wf = true := ones_wfFrom 65536 0 (by omega)

theorem endless_read (a : Word) : endless.mem.read a = 1#16 := ones_lookup 65536 0 _ (Nat.zero_le _) (by have := a.isLt; omega)

theorem endless_never (f : StringForm) (n : Nat) (p : Word) : (writeString f n [] p (trapEntry endless)).hold ≠ none :=
  writeString_forever f 1#16 n [] p _ rfl rfl endless_wf (endless_read _) fun a _ => by
    show endless.mem.read a ≠ _
    rw [endless_read]; decide

theorem endless_noRun (f : StringForm) (p : Word) : ¬ ∃ t, StringRun f.codes p (trapEntry endless) t := by
  rintro ⟨t, h⟩
  obtain ⟨n, hn⟩ := h.ends
  exact endless_never f n p (by rw [hn]; rfl)

/-- Both ends of the loop: one string that ends and one that does not. -/
theorem witness_StringRoutinesAreTheLoop : (base.mem.wf = true ∧ base.cut = none ∧
      ∀ f : StringForm, ∃ t, StringRun f.codes (base.reg .r0) (trapEntry base) t) ∧
    (endless.mem.wf = true ∧ endless.cut = none ∧ endless.run = .running ∧ endless.script = [] ∧
      ∀ f : StringForm, ¬ ∃ t, StringRun f.codes (endless.reg .r0) (trapEntry endless) t) :=
  ⟨⟨rfl, rfl, fun f => ⟨_, .done _ _ (by decide)⟩⟩, endless_wf, rfl, rfl, rfl, fun f => endless_noRun f _⟩

theorem witness_TrapSavesOnlyReturnAddress : isTrap .getc = true ∧ isTrap (.trap 0x26#8) = true ∧ ¬ isIn .getc ∧
    (∃ t, exec .getc oneKey = .next t) ∧ ∃ t, exec .in_ oneKey = .next t :=
  ⟨rfl, rfl, by simp [isIn], ⟨_, rfl⟩, _, rfl⟩

theorem witness_RegistersWrittenAsTabled : (∃ t, exec (.ldi .r3 0#9) base = .next t) ∧ ∃ t, exec (.trap 0x20#8) base = .next t :=
  ⟨⟨_, rfl⟩, _, rfl⟩

theorem witness_MemoryWrittenOnlyByStores : isStore (.ld .r0 0#9) = false ∧
    ∃ t, exec (.ld .r0 0#9) base = .next t ∧ t.trace = base.trace ++ [] ∧ ∀ k, Event.pollKey k ∉ ([] : List Event) :=
  ⟨rfl, _, rfl, by decide, by simp⟩

theorem witness_PcLeftAsTabled : isTransfer (.sti .r0 0#9) = false ∧ ∃ t, exec (.sti .r0 0#9) base = .next t := ⟨rfl, _, rfl⟩

/-- A load that polls and takes a key, and an instruction that does not poll. -/
theorem witness_WriteCharAndReadKeyOnlyByTrap : isTrap (.ldr .r0 .r1 0#6) = false ∧
    (∃ t, exec (.ldr .r0 .r1 0#6) (oneKey.setReg .r1 0xFE00#16) = .next t ∧ t.trace = [.pollKey (some 0x61#16)] ∧ t.keys = []) ∧
    isTrap (.rti 0#12) = false ∧ ∃ t, exec (.rti 0#12) oneKey = .next t ∧ ∀ k, Event.pollKey k ∉ t.trace :=
  ⟨rfl, ⟨_, rfl, by decide, by decide⟩, rfl, _, rfl, fun k => by
    show Event.pollKey k ∉ [Event.invalidOpcode _ _]
    simp⟩

theorem witness_KeysLeaveFromTheFront : ∃ t, exec .getc (typed [0x61#16, 0x62#16] base) = .next t ∧ t.keys = [0x62#16] :=
  ⟨_, rfl, rfl⟩

/-- The same cells written in two orders. -/
theorem witness_CanonicalMemoryIsExtensional :
    (cells [(1, 0x11#16), (2, 0x22#16)]).wf = true ∧ (cells [(2, 0x22#16), (1, 0x11#16)]).wf = true ∧
    cells [(1, 0x11#16), (2, 0x22#16)] = cells [(2, 0x22#16), (1, 0x11#16)] := by decide

theorem witness_BusReadPollsOnlyAtStatus : base.mem.wf = true ∧ NoKey base ∧ NextKey 0x61#16 [] oneKey ∧
    NextKey 0x61#16 [] heldDown := ⟨rfl, noKey_base, nextKey_oneKey, nextKey_heldDown⟩

/-- Each clause: a plain word, KBDR past a poll that finds no key, KBSR itself. -/
theorem witness_BusRoundTrip : base.mem.wf = true ∧ 0x4000#16 ≠ Config.kbsr ∧ 0x4000#16 ≠ Config.kbdr ∧
    0x4000#16 ∉ writtenByBus [.read 0xFE00#16, .write 0x4001#16 7#16] ∧
    Config.kbdr ∉ writtenByBus [.read 0xFE00#16, .write 0x4001#16 7#16] ∧
    (∀ ev, (runBus [.read 0xFE00#16, .write 0x4001#16 7#16] (base.memWrite Config.kbdr 0x1234#16)).trace = base.trace ++ ev →
      ∀ k, Event.pollKey (some k) ∉ ev) := by
  refine ⟨rfl, by decide, by decide, by decide, by decide, ?_⟩
  intro ev h k
  have e : (runBus [.read 0xFE00#16, .write 0x4001#16 7#16] (base.memWrite Config.kbdr 0x1234#16)).trace = [.pollKey none] := by
    decide
  rw [e] at h
  have : ev = [.pollKey none] := h.symm
  simp [this]

theorem witness_StatusReadConsumesKey :
    ((typed [0x41#16, 0x42#16] base).mem.wf = true ∧ (typed [0x41#16, 0x42#16] base).heldKey = none ∧
      (typed [0x41#16, 0x42#16] base).keys = 0x41#16 :: 0x42#16 :: []) ∧
    (oneKey.mem.wf = true ∧ oneKey.heldKey = none ∧ oneKey.keys = [0x61#16]) := ⟨⟨rfl, rfl, rfl⟩, rfl, rfl, rfl⟩

theorem witness_StoreIsSeenByNextFetch : base.mem.wf = true ∧
    (∃ t, exec (.st .r1 0#9) base = .next t) ∧ pcRelative base 0#9 ≠ Config.kbsr ∧
    (∃ t, exec (.str .r1 .r2 0#6) base = .next t) ∧ baseOffset base .r2 0#6 ≠ Config.kbsr ∧
    (∃ t, exec (.sti .r1 0#9) base = .next t) ∧ (indirect base 0#9).1 ≠ Config.kbsr :=
  ⟨rfl, ⟨_, rfl⟩, by decide, ⟨_, rfl⟩, by decide, ⟨_, rfl⟩, by decide⟩

theorem witness_StepRunsDecoded : (base.run = .running ∧ environmentTurn base = some base ∧ base.hold = none ∧
      base.pc ≠ Config.kbsr ∧ base.script = []) ∧
    environmentTurn (base.setScript [[.press 0x61#16]]) = some oneKey ∧ oneKey.hold = none ∧ oneKey.pc ≠ Config.kbsr :=
  ⟨⟨rfl, rfl, rfl, by decide, rfl⟩, rfl, rfl, by decide⟩

theorem witness_EnvironmentOnlyTouchesTheConsole : environmentTurn (base.setScript [[.press 0x61#16]]) = some oneKey ∧
    (base.setScript [[.press 0x61#16, .press 0x62#16]]).script = [0x61#16, 0x62#16].map .press :: [] ∧
    (base.setScript [[.cut 3]]).script = [.cut 3] :: [] ∧
    (∃ s', environmentTurn (base.setCut (some 3)) = some s') ∧
    ∀ t n, (base.setCut (some 3)).script.head? = some t → EnvAction.cut n ∉ t :=
  ⟨rfl, rfl, rfl, ⟨_, rfl⟩, fun t n h => by cases h⟩

/-- No key; a key that was pending; a key that comes in the very turn. -/
theorem witness_FetchFromStatusPolls :
    (∃ s', (base.setPc Config.kbsr).mem.wf = true ∧ (base.setPc Config.kbsr).run = .running ∧
      environmentTurn (base.setPc Config.kbsr) = some s' ∧ s'.hold = none ∧ s'.pc = Config.kbsr ∧ NoKey s') ∧
    (∃ s', environmentTurn (oneKey.setPc Config.kbsr) = some s' ∧ s'.hold = none ∧ s'.pc = Config.kbsr ∧
      NextKey 0x61#16 [] s') ∧
    ∃ s', environmentTurn ((base.setPc Config.kbsr).setScript [[.press 0x61#16]]) = some s' ∧ s'.hold = none ∧
      s'.pc = Config.kbsr ∧ NextKey 0x61#16 [] s' :=
  ⟨⟨_, rfl, rfl, rfl, rfl, rfl, rfl, rfl⟩, ⟨_, rfl, rfl, rfl, .inl rfl⟩, _, rfl, rfl, rfl, .inl rfl⟩

/-- S7: a running unit that a fetched HALT stops; and a stopped one. -/
theorem witness_HaltedOnlyByHaltAndForEver : base.setHalted.run = .halted ∧
    (base.withFetchWord 16 0xF025).run = .running ∧
    after 0xF025 base (fun t => t.run) = some .halted ∧
    (∃ t, exec (.st .r0 0#9) base = .next t) := ⟨rfl, rfl, by decide, _, rfl⟩

theorem witness_AbortOnlyByEnvironment : (base.setScript [[.press 0x61#16, .abort]]).run = .running ∧
    (∃ t, (base.setScript [[.press 0x61#16, .abort]]).script.head? = some t ∧ EnvAction.abort ∈ t) ∧
    step (base.setScript [[.press 0x61#16, .abort]]) = .fault .aborted := ⟨rfl, ⟨_, rfl, by decide⟩, rfl⟩

/-- Each side: a step that completes, and one that the environment ends. -/
theorem witness_StepNeverRefuses : (∃ t, step base = .next t) ∧ step (base.setScript [[.abort]]) = .fault .aborted :=
  ⟨⟨_, rfl⟩, rfl⟩

theorem witness_OrdinaryStepCompletes : base.mem.wf = true ∧ base.run = .running ∧ OrdinaryEnvironment base ∧
    OrdinaryEnvironment (base.setScript [[.press 0x61#16, .release], [.cut 1, .abort]]) := by
  refine ⟨rfl, rfl, ⟨rfl, fun t h => by cases h⟩, rfl, fun t h => ?_⟩
  cases h
  simp

theorem witness_StepKeepsInvariant : StepInv base ∧ (∃ t, step base = .next t) ∧
    StepInv (((base.setReg .r7 base.pc)).setHold (some .getc)) ∧
    ∃ t, step (((base.setReg .r7 base.pc)).setHold (some .getc)) = .next t :=
  ⟨⟨rfl, fun h => absurd rfl h⟩, ⟨_, rfl⟩, ⟨rfl, fun _ => ⟨rfl, rfl⟩⟩, _, rfl⟩

theorem witness_FlagStaysSet : (flagged .z base).cond ≠ .none ∧ (∃ t, step (flagged .z base) = .next t) ∧
    (∃ t, exec (.add .r0 .r0 .r0) base = .next t ∧ condDest (.add .r0 .r0 .r0) = some .r0) ∧
    (∃ t, exec .in_ oneKey = .next t ∧ isIn .in_ ∧ t.hold = none) ∧
    base.cond = .none ∧ exec (.br true true true 5#9) base = .next base := ⟨by decide, ⟨_, rfl⟩, ⟨_, rfl, rfl⟩,
  ⟨_, in_oneKey, .inl rfl, rfl⟩, rfl, rfl⟩

theorem witness_TraceGrowsAndIsNeverRead : (∃ t, step base = .next t) ∧ step (base.setScript [[.abort]]) = .fault .aborted :=
  ⟨⟨_, rfl⟩, rfl⟩

theorem witness_DecodeReadsEncodedBack : (Instr.trap 0xFF#8).wellFormed = true ∧ (Instr.jmp .r6).wellFormed = true ∧
    encode (.addImm .r1 .r1 31#5) = encode (.addImm .r1 .r1 31#5) := by decide

/-- ADD with its two ignored bits set is the ADD with them clear. -/
theorem witness_EveryWordIsItsInstruction :
    0x1018#16 &&& significantBits (decode 0x1000#16) = 0x1000#16 &&& significantBits (decode 0x1000#16) := by decide

/-- Each side of the choice of PC, with the greatest word. -/
theorem witness_PlacedWordIsRun : base.mem.wf = true ∧ base.pc ≠ Config.kbsr ∧ (base.setPc Config.kbsr).pc = Config.kbsr ∧
    0xFFFF < 65536 := ⟨rfl, by decide, rfl, by decide⟩

/-- An image that ends at the top of memory, one over KBSR with a zero word, and one a word too long. -/
theorem witness_BootLoadsImage : imageOk 0xFFFF#16 [1#16] = true ∧ imageOk 0xFE00#16 [0#16, 7#16, 0#16] = true ∧
    imageOk 0xFFFF#16 [1#16, 1#16] = false ∧ imageOk 0xFE02#16 [1#16] = false := by decide

theorem witness_ImageFileIsBigEndian : ([] : List Byte).length ≤ 1 ∧ [0xF0#8].length ≤ 1 := by decide

end Sys2Proof.Tests
end

section
/-! Sign extension (00_scope.md R6): the bits of `sext`, its signed value, and the field it was made from. -/

namespace Sys2Proof.Machine

theorem getLsbD_sext {n : Nat} (field : BitVec n) {i : Nat} (hi : i < 16) :
    (sext field).getLsbD i = if i < n then field.getLsbD i else field.msb := by
  rw [sext, BitVec.getLsbD_signExtend, decide_eq_true hi, Bool.true_and]

theorem getLsbD_sext_setWidth {n : Nat} (hn : 0 < n) (v : Word) {i : Nat} (hi : i < 16) :
    (sext (v.setWidth n)).getLsbD i = if i < n then v.getLsbD i else v.getLsbD (n - 1) := by
  rw [getLsbD_sext _ hi]
  split
  next hin => simp [hin]
  next => simp [BitVec.msb_setWidth, hn]

theorem toInt_sext {n : Nat} (hn : n ≤ 16) (field : BitVec n) : (sext field).toInt = field.toInt :=
  BitVec.toInt_signExtend_of_le hn

/-- `sext` keeps its field: the low n bits of the Word are the field again. -/
theorem setWidth_sext {n : Nat} (hn : n ≤ 16) (field : BitVec n) : (sext field).setWidth n = field := by
  refine BitVec.eq_of_getLsbD_eq fun i hi => ?_
  have hi16 : i < 16 := by omega
  simp [getLsbD_sext field hi16, hi]

/-- Settles O1: nothing of it turns on the four widths but that each lies between 1 and 16. -/
theorem signExtensionFollowsR6 : Obligations.SignExtensionFollowsR6 := by
  intro n hmem v
  have ⟨hpos, hle⟩ : 0 < n ∧ n ≤ 16 := by
    simp only [List.mem_cons, List.not_mem_nil, or_false] at hmem
    omega
  refine ⟨fun i hi => getLsbD_sext_setWidth hpos v hi, toInt_sext hle _, ?_⟩
  rw [setWidth_sext hle]

end Sys2Proof.Machine
end

section
/-! The shape of what an instruction does, said once for the whole instruction set, and what follows from it: the registers
written, PC, COND, RUN, and the environment's part of the state (10_state.md R15 to R31). -/

namespace Sys2Proof.Machine

/-! ### What the tables say of one another -/

theorem condDest_some {i : Instr} {dr : Reg} (h : condDest i = some dr) :
    writtenRegs i = [dr] ∧ isTransfer i = false ∧ ¬ isIn i := by
  cases i <;> simp_all [condDest, writtenRegs, isTransfer, isIn]

theorem isTransfer_tables {i : Instr} (h : isTransfer i = true) : condDest i = none ∧ ¬ isIn i := by
  cases i <;> simp_all [condDest, isTransfer, isIn]

theorem isStore_tables {i : Instr} (h : isStore i = true) : condDest i = none ∧ ¬ isIn i := by
  cases i <;> simp_all [condDest, isStore, isIn]

theorem isTrap_tables {i : Instr} (h : isTrap i = true) : condDest i = none ∧ .r7 ∈ writtenRegs i := by
  cases i <;> simp_all [condDest, isTrap, writtenRegs]
  split <;> simp

/-! ### The shapes -/

/-- The shapes of an instruction's effect. -/
inductive Effect (i : Instr) (s : State) : State → Prop where
  /-- A destination register takes a value and COND its flag, after bus reads if any (R23). -/
  | dest {dr : Reg} {v : Word} {m : State} (hi : condDest i = some dr) (hm : BusFrame s m) : Effect i s (setRegCc dr v m)
  /-- A memory word takes a value, after bus reads if any (R37). -/
  | store {a v : Word} {m : State} (hi : isStore i = true) (hm : BusFrame s m) : Effect i s (m.memWrite a v)
  /-- PC takes a value; a branch that is not taken gives PC the value it has (R19, R90). -/
  | jump {v : Word} (hi : isTransfer i = true) : Effect i s (s.setPc v)
  /-- R7 takes the return address, then PC a value (R16). -/
  | link {v : Word} (hi : isTransfer i = true) (hr : .r7 ∈ writtenRegs i) : Effect i s ((s.setReg .r7 s.pc).setPc v)
  /-- A reserved opcode is reported (R141). -/
  | report {e : Event} {bits : BitVec 12} (hi : i = .rti bits ∨ i = .res bits) : Effect i s (s.emit e)
  /-- A trap with bus reads and characters only (R118, R119, R121, R123). -/
  | output {t : State} (hi : isTrap i = true) (hin : ¬ isIn i) (ht : BusFrame (trapEntry s) t) : Effect i s t
  /-- A trap that reads a key into R0 (R117, R120). -/
  | input {t : State} (hi : isTrap i = true) (hr : .r0 ∈ writtenRegs i) (ht : KeyFrame (trapEntry s) t)
      (hin : isIn i → InOutcome (trapEntry s) t) (hget : ¬ isIn i → t.cond = s.cond) : Effect i s t
  /-- HALT (R122). -/
  | halt (hi : i = .halt ∨ i = .trap 0x25#8) : Effect i s (trapEntry s).setHalted

theorem effect_getc {i : Instr} (s : State) (h : i = .getc ∨ i = .trap 0x20#8) : Effect i s (getcRead (trapEntry s)) := by
  have hin : ¬ isIn i := by rcases h with rfl | rfl <;> simp [isIn]
  refine .input ?_ ?_ (getcRead_keyFrame _) (absurd · hin) fun _ => getcRead_cond _
  all_goals rcases h with rfl | rfl <;> simp [isTrap, writtenRegs]

theorem effect_in {i : Instr} (s : State) (h : isIn i) : Effect i s (inRoutine (trapEntry s)) := by
  refine .input ?_ ?_ (inFrom_keyFrame ..) (fun _ => inFrom_outcome ..) (absurd h)
  all_goals rcases h with rfl | rfl <;> simp [isTrap, writtenRegs]

theorem effect_trap (v : BitVec 8) (s : State) : Effect (.trap v) s (trapRoutine v (trapEntry s)) := by
  have notIn {w : BitVec 8} (hw : w ≠ 0x23#8) : ¬ isIn (.trap w) := by simp [isIn, hw]
  rcases vector_cases v with rfl | rfl | rfl | rfl | rfl | rfl | h
  · exact effect_getc s (.inr rfl)
  · exact .output rfl (notIn (by decide)) (writeChar_busFrame ..)
  · exact .output rfl (notIn (by decide)) (stringFrom_busFrame ..)
  · exact effect_in s (.inr rfl)
  · exact .output rfl (notIn (by decide)) (stringFrom_busFrame ..)
  · exact .halt (.inr rfl)
  · rw [trapRoutine_undefined h]
    exact .output rfl (notIn (by rintro rfl; cases h)) (.refl _)

/-- The effect of every instruction has one of the shapes. -/
theorem exec_effect {i : Instr} {s t : State} (h : exec i s = .next t) : Effect i s t := by
  cases i <;> obtain rfl := Host.Outcome.next.inj h
  case br =>
    split
    next => exact .jump rfl
    next => exact .jump (v := s.pc) rfl
  case add | addImm | and | andImm | not | lea => exact .dest rfl (.refl s)
  case ld | ldr => exact .dest rfl (memRead_busFrame _ s)
  case ldi => exact .dest rfl ((memRead_busFrame _ s).trans (memRead_busFrame _ _))
  case st | str => exact .store rfl (.refl s)
  case sti => exact .store rfl (memRead_busFrame _ s)
  case jmp | ret => exact .jump rfl
  case jsr | jsrr => exact .link rfl List.mem_cons_self
  case rti => exact .report (.inl rfl)
  case res => exact .report (.inr rfl)
  case trap v => exact effect_trap v s
  case getc => exact effect_getc s (.inl rfl)
  case out => exact .output rfl (by simp [isIn]) (writeChar_busFrame ..)
  case puts | putsp => exact .output rfl (by simp [isIn]) (stringFrom_busFrame ..)
  case in_ => exact effect_in s (.inl rfl)
  case halt => exact .halt (.inl rfl)

/-! ### What every shape keeps -/

theorem Effect.regsKept {i : Instr} {s t : State} (h : Effect i s t) : RegsKept (writtenRegs i) s t := by
  intro q hq
  have ne_of_mem {r : Reg} (hr : r ∈ writtenRegs i) : q ≠ r := fun e => hq (e ▸ hr)
  cases h with
  | dest hi hm =>
    rw [setRegCc_reg, if_neg (ne_of_mem (by simp [(condDest_some hi).1])), hm.reg]
  | store _ hm => exact hm.reg q
  | jump => rfl
  | link _ hr => exact State.setReg_reg_ne _ _ (ne_of_mem hr)
  | report => rfl
  | output hi _ ht => rw [ht.reg, trapEntry_reg _ (ne_of_mem (isTrap_tables hi).2)]
  | input hi hr ht => rw [ht.regs q (ne_of_mem hr), trapEntry_reg _ (ne_of_mem (isTrap_tables hi).2)]
  | halt hi =>
    have hr : .r7 ∈ writtenRegs i := by rcases hi with rfl | rfl <;> decide
    exact trapEntry_reg _ (ne_of_mem hr)

theorem Effect.pc_eq {i : Instr} {s t : State} (h : Effect i s t) (hi : isTransfer i = false) : t.pc = s.pc := by
  cases h with
  | dest _ hm => exact hm.pc
  | store _ hm => exact hm.pc
  | jump hj => rw [hj] at hi; cases hi
  | link hj => rw [hj] at hi; cases hi
  | report => rfl
  | output _ _ ht => exact ht.pc
  | input _ _ ht => exact ht.pc
  | halt => rfl

/-- RUN is written by HALT alone (R26). -/
theorem Effect.run_eq {i : Instr} {s t : State} (h : Effect i s t) :
    t.run = s.run ∨ i = .halt ∨ i = .trap 0x25#8 := by
  cases h with
  | dest _ hm => exact .inl hm.run
  | store _ hm => exact .inl hm.run
  | jump | link | report => exact .inl rfl
  | output _ _ ht => exact .inl ht.run
  | input _ _ ht => exact .inl ht.run
  | halt hi => exact .inr hi

theorem Effect.environment {i : Instr} {s t : State} (h : Effect i s t) :
    (∃ taken, s.keys = taken ++ t.keys) ∧ t.heldKey = s.heldKey ∧ t.script = s.script ∧ t.cut = s.cut := by
  cases h with
  | dest _ hm => exact ⟨hm.keys, hm.heldKey, hm.script, hm.cut⟩
  | store _ hm => exact ⟨hm.keys, hm.heldKey, hm.script, hm.cut⟩
  | jump | link | report | halt => exact ⟨⟨[], rfl⟩, rfl, rfl, rfl⟩
  | output _ _ ht => exact ⟨ht.keys, ht.heldKey, ht.script, ht.cut⟩
  | input _ _ ht => exact ⟨ht.keys, ht.heldKey, ht.script, ht.cut⟩

/-- COND is the flag of the destination register, or what IN has made of it, or what it was (R23). -/
theorem Effect.cond_cases {i : Instr} {s t : State} (h : Effect i s t) :
    (∃ r, condDest i = some r ∧ t.cond = flagOf (t.reg r)) ∨
    (isIn i ∧ InOutcome (trapEntry s) t) ∨
    (condDest i = none ∧ ¬ isIn i ∧ t.cond = s.cond) := by
  cases h with
  | @dest dr v m hi hm => exact .inl ⟨dr, hi, by rw [setRegCc_cond, setRegCc_reg_same]⟩
  | store hi hm =>
    obtain ⟨hd, hin⟩ := isStore_tables hi
    exact .inr (.inr ⟨hd, hin, hm.cond⟩)
  | jump hi =>
    obtain ⟨hd, hin⟩ := isTransfer_tables hi
    exact .inr (.inr ⟨hd, hin, rfl⟩)
  | link hi =>
    obtain ⟨hd, hin⟩ := isTransfer_tables hi
    exact .inr (.inr ⟨hd, hin, rfl⟩)
  | report hi => rcases hi with rfl | rfl <;> exact .inr (.inr ⟨rfl, by simp [isIn], rfl⟩)
  | output hi hin ht => exact .inr (.inr ⟨(isTrap_tables hi).1, hin, ht.cond⟩)
  | input hi _ _ ho hget =>
    by_cases hin : isIn i
    · exact .inr (.inl ⟨hin, ho hin⟩)
    · exact .inr (.inr ⟨(isTrap_tables hi).1, hin, hget hin⟩)
  | halt hi => rcases hi with rfl | rfl <;> exact .inr (.inr ⟨rfl, by simp [isIn], rfl⟩)

end Sys2Proof.Machine
end

section
/-! What no instruction but BR can see: an update of the state that touches nothing an instruction looks at passes through
every meaning and through the rest of an unfinished trap (10_state.md R23, R26, R31). -/

namespace Sys2Proof.Machine

/-- An update that the bus, the console and the operands cannot see. A meaning may write over what `f` updates (the flags
over COND, HALT over RUN): such a write loses the update, and doing `f` again restores it. -/
structure UnseenByExec (f : State → State) : Prop extends Unseen f where
  regs      : ∀ s, (f s).regs = s.regs
  pc        : ∀ s, (f s).pc = s.pc
  setReg    : ∀ s r v, (f s).setReg r v = f (s.setReg r v)
  setPc     : ∀ s v, (f s).setPc v = f (s.setPc v)
  setRegCc  : ∀ s r v, f (setRegCc r v (f s)) = f (f (setRegCc r v s))
  setHalted : ∀ s, f (f s).setHalted = f (f s.setHalted)

theorem unseenByExec_setCond (c : Cond) : UnseenByExec (·.setCond c) where
  toUnseen  := unseen_setCond c
  regs      := fun _ => rfl
  pc        := fun _ => rfl
  setReg    := fun _ _ _ => rfl
  setPc     := fun _ _ => rfl
  setRegCc  := fun _ _ _ => rfl
  setHalted := fun _ => rfl

theorem unseenByExec_run (q : Run) : UnseenByExec (fun s => { s with run := q }) where
  toUnseen  := unseen_run q
  regs      := fun _ => rfl
  pc        := fun _ => rfl
  setReg    := fun _ _ _ => rfl
  setPc     := fun _ _ => rfl
  setRegCc  := fun _ _ _ => rfl
  setHalted := fun _ => rfl

theorem unseenByExec_withPast (pre : List Event) : UnseenByExec (withPast pre) where
  toUnseen  := unseen_withPast pre
  regs      := fun _ => rfl
  pc        := fun _ => rfl
  setReg    := fun _ _ _ => rfl
  setPc     := fun _ _ => rfl
  setRegCc  := fun _ _ _ => rfl
  setHalted := fun _ => rfl

section
variable {f : State → State} (hf : UnseenByExec f)
include hf

theorem UnseenByExec.reg (s : State) (r : Reg) : (f s).reg r = s.reg r := by rw [State.reg, State.reg, hf.regs]

theorem UnseenByExec.trapEntry (s : State) : trapEntry (f s) = f (trapEntry s) := by
  rw [Machine.trapEntry, Machine.trapEntry, hf.pc, hf.setReg]

theorem UnseenByExec.pcRelative (s : State) (off : BitVec 9) : pcRelative (f s) off = pcRelative s off := by
  rw [Machine.pcRelative, Machine.pcRelative, hf.pc]

theorem UnseenByExec.baseOffset (s : State) (base : Reg) (off : BitVec 6) :
    baseOffset (f s) base off = baseOffset s base off := by
  rw [Machine.baseOffset, Machine.baseOffset, hf.reg]

theorem UnseenByExec.loadFrom (dr : Reg) (a : Word) (s : State) :
    f (loadFrom dr a (f s)) = f (f (loadFrom dr a s)) := by
  rw [loadFrom_eq, loadFrom_eq, hf.memRead, hf.setRegCc]

/-! ### The key reads -/

theorem UnseenByExec.getcRead (s : State) : getcRead (f s) = f (getcRead s) := by
  rcases nextKey_or_noKey s with ⟨k, rest, h⟩ | h
  · rw [getcRead_next h, getcRead_next (hf.nextKey.mpr h), hf.setKeys]
    simp only [finishGetc, hf.emit, hf.setReg, hf.setHold]
  · rw [getcRead_noKey h, getcRead_noKey (hf.noKey.mpr h), hf.setHold]

theorem UnseenByExec.inEcho (n : Nat) (k : Word) (s : State) : f (inEcho n k (f s)) = f (f (inEcho n k s)) := by
  cases n with
  | zero => rw [Machine.inEcho, Machine.inEcho, hf.setHold]
  | succ n =>
    simp only [Machine.inEcho, finishIn, writeChar]
    rw [hf.emit, ← hf.setHold, hf.setRegCc, hf.setHold, hf.setHold]

theorem UnseenByExec.inRead (n : Nat) (s : State) : f (inRead n (f s)) = f (f (inRead n s)) := by
  rcases nextKey_or_noKey s with ⟨k, rest, h⟩ | h
  · rw [inRead_next n h, inRead_next n (hf.nextKey.mpr h), hf.setKeys, hf.emit, hf.inEcho]
  · rw [inRead_noKey n h, inRead_noKey n (hf.noKey.mpr h), hf.setHold]

theorem UnseenByExec.inFrom (n : Nat) (cs : List Word) (s : State) : f (inFrom n cs (f s)) = f (f (inFrom n cs s)) := by
  induction n generalizing cs s with
  | zero => rw [inFrom_stop, inFrom_stop, hf.setHold]
  | succ n ih =>
    cases cs with
    | nil => exact hf.inRead n s
    | cons c cs =>
      have hc : writeChar c (f s) = f (writeChar c s) := hf.emit ..
      rw [Machine.inFrom, Machine.inFrom, hc, ih]

theorem UnseenByExec.allowed (n : Nat) (s : State) : (f s).allowed n = s.allowed n := by
  rw [State.allowed, State.allowed, hf.cut]

/-- The rest of an unfinished trap does not see such an update. -/
theorem UnseenByExec.resumeHold (w : TrapHold) (s : State) : f (resumeHold w (f s)) = f (f (resumeHold w s)) := by
  cases w with
  | getc => exact congrArg f (hf.getcRead s)
  | in_ cs => rw [Machine.resumeHold, Machine.resumeHold, hf.allowed, hf.inFrom]
  | echo k => rw [Machine.resumeHold, Machine.resumeHold, hf.allowed, hf.inEcho]
  | string form cs p => exact congrArg f (hf.stringFrom form cs p s)

/-! ### The instructions -/

theorem UnseenByExec.inRoutine (s : State) : f (inRoutine (f s)) = f (f (inRoutine s)) := by
  simp only [Machine.inRoutine, inRoutineWith, hf.allowed, hf.inFrom]

theorem UnseenByExec.trapRoutine (v : BitVec 8) (s : State) : f (trapRoutine v (f s)) = f (f (trapRoutine v s)) := by
  rcases vector_cases v with rfl | rfl | rfl | rfl | rfl | rfl | h
  · exact congrArg f (hf.getcRead s)
  · simp only [trapRoutine_out, outRoutine, writeChar, hf.reg, hf.emit]
  · simp only [trapRoutine_puts, putsRoutine, hf.reg, hf.stringFrom]
  · exact hf.inRoutine s
  · simp only [trapRoutine_putsp, putspRoutine, hf.reg, hf.stringFrom]
  · exact hf.setHalted s
  · rw [trapRoutine_undefined h, trapRoutine_undefined h]

/-- No instruction sees the update but BR, which must find COND as it was. -/
theorem UnseenByExec.exec (i : Instr) (s : State) (hb : isBr i = false ∨ (f s).cond = s.cond) :
    ∃ t t', Machine.exec i s = .next t ∧ Machine.exec i (f s) = .next t' ∧ f t' = f (f t) := by
  cases i
  case ldi => exact ⟨_, _, exec_ldi .., exec_ldi .., by rw [hf.pcRelative, hf.memRead, hf.loadFrom]⟩
  case sti => exact ⟨_, _, exec_sti .., exec_sti .., by rw [hf.pcRelative, hf.memRead, hf.reg, hf.memWrite]⟩
  all_goals refine ⟨_, _, rfl, rfl, ?_⟩
  case br =>
    obtain hb | hc := hb
    · cases hb
    · rw [hc, hf.pcRelative, hf.setPc]
      split <;> rfl
  case add | addImm | and | andImm | not => simp only [hf.reg, hf.setRegCc]
  case lea => rw [hf.pcRelative, hf.setRegCc]
  case ld => rw [hf.pcRelative, hf.loadFrom]
  case ldr => rw [hf.baseOffset, hf.loadFrom]
  case st => rw [hf.pcRelative, hf.reg, hf.memWrite]
  case str => rw [hf.baseOffset, hf.reg, hf.memWrite]
  case jmp | ret => simp only [jumpTo, hf.reg, hf.setPc]
  case jsr | jsrr => simp only [jumpTo, link, pcRelativeLong, hf.pc, hf.setReg, hf.reg, hf.setPc]
  case rti | res => simp only [signalInvalidOpcode, State.instrAddress, hf.pc, hf.emit]
  case trap => rw [hf.trapEntry, hf.trapRoutine]
  case getc => rw [hf.trapEntry]; exact hf.trapRoutine 0x20#8 _
  case out => rw [hf.trapEntry]; exact hf.trapRoutine 0x21#8 _
  case puts => rw [hf.trapEntry]; exact hf.trapRoutine 0x22#8 _
  case in_ => rw [hf.trapEntry]; exact hf.trapRoutine 0x23#8 _
  case putsp => rw [hf.trapEntry]; exact hf.trapRoutine 0x24#8 _
  case halt => rw [hf.trapEntry]; exact hf.trapRoutine 0x25#8 _

end

/-- The same for a meaning already known: it answers on the updated state too, and differs by the update only. -/
theorem UnseenByExec.exec_next {f : State → State} (hf : UnseenByExec f) {i : Instr} {s t : State}
    (h : Machine.exec i s = .next t) (hb : isBr i = false ∨ (f s).cond = s.cond) :
    ∃ t', Machine.exec i (f s) = .next t' ∧ f t' = f (f t) := by
  obtain ⟨u, t', hu, ht', e⟩ := hf.exec i s hb
  obtain rfl := Host.Outcome.next.inj (h.symm.trans hu)
  exact ⟨t', ht', e⟩

end Sys2Proof.Machine
end

section
/-! The record of port events passes through every step: with more of it in front, the step does the same and only leaves
the same more in front (10_state.md R31, 20_memory.md R57). -/

namespace Sys2Proof.Machine

theorem withPast_injective (pre : List Event) : Function.Injective (withPast pre) := by
  intro s t h
  cases s; cases t
  simpa [withPast] using h

/-- An answer with its next state, if it has one, put through `f`. -/
def mapNext (f : State → State) : Result → Result
  | .next s => .next (f s)
  | .fault r => .fault r
  | .refused r => .refused r

theorem exec_withPast (pre : List Event) (i : Instr) (s : State) :
    exec i (withPast pre s) = mapNext (withPast pre) (exec i s) := by
  obtain ⟨t, t', ht, ht', e⟩ := (unseenByExec_withPast pre).exec i s (.inr rfl)
  rw [ht, ht', withPast_injective pre e, mapNext]

theorem resumeHold_withPast (pre : List Event) (w : TrapHold) (s : State) :
    resumeHold w (withPast pre s) = withPast pre (resumeHold w s) :=
  withPast_injective pre ((unseenByExec_withPast pre).resumeHold w s)

theorem fetch_withPast (pre : List Event) (s : State) :
    fetch (withPast pre s) = ((fetch s).1, withPast pre (fetch s).2) := by
  simp only [fetch, (unseenByExec_withPast pre).pc, (unseenByExec_withPast pre).memRead, (unseenByExec_withPast pre).setPc]

theorem applyTurn_withPast (pre : List Event) (as : List EnvAction) (s : State) :
    applyTurn as (withPast pre s) = (applyTurn as s).map (withPast pre) := by
  induction as generalizing s with
  | nil => rfl
  | cons a as ih =>
    cases a with
    | press k => exact ih (s.setKeys (s.keys ++ [k]))
    | holdDown k => exact ih (s.setHeldKey (some k))
    | release => exact ih (s.setHeldKey none)
    | cut n => exact ih (s.setCut (some n))
    | abort => rfl

theorem environmentTurn_withPast (pre : List Event) (s : State) :
    environmentTurn (withPast pre s) = (environmentTurn s).map (withPast pre) := by
  cases hs : s.script with
  | nil => rw [environmentTurn_nil hs, environmentTurn_nil (s := withPast pre s) hs]; rfl
  | cons as ts =>
    rw [environmentTurn_cons hs, environmentTurn_cons (s := withPast pre s) hs]
    exact applyTurn_withPast pre as ((s.setScript ts).setCut none)

theorem step_withPast (pre : List Event) (s : State) : step (withPast pre s) = mapNext (withPast pre) (step s) := by
  cases hr : s.run with
  | halted => rw [step_halted hr, step_halted (s := withPast pre s) hr, mapNext]
  | running =>
    have hr' : (withPast pre s).run = .running := hr
    have hturn := environmentTurn_withPast pre s
    cases ht : environmentTurn s with
    | none =>
      rw [ht, Option.map_none] at hturn
      rw [step_running hr, step_running hr', environmentStep, environmentStep, ht, hturn]; rfl
    | some s' =>
      rw [ht, Option.map_some] at hturn
      rw [step_of_turn hr ht, step_of_turn hr' hturn]
      have hh : (withPast pre s').hold = s'.hold := rfl
      rw [hh]
      cases s'.hold with
      | some w => exact congrArg Host.Outcome.next (resumeHold_withPast pre w s')
      | none => simp only [fetch_withPast, exec_withPast]

/-- Settles O54. The step is looked at with an empty record: what it records then is what it adds to any record. -/
theorem traceGrowsAndIsNeverRead : Obligations.TraceGrowsAndIsNeverRead := by
  have fromEmpty (s : State) (tr : List Event) :
      step { s with trace := tr } = mapNext (withPast tr) (step { s with trace := [] }) := by
    rw [← step_withPast]; simp [withPast]
  have own (s : State) : step s = mapNext (withPast s.trace) (step { s with trace := [] }) := fromEmpty s s.trace
  constructor
  · intro s t h
    rw [own] at h
    cases h0 : step { s with trace := [] } with
    | next t0 =>
      rw [h0] at h
      obtain rfl := Host.Outcome.next.inj h
      exact ⟨t0.trace, rfl, fun tr => by rw [fromEmpty, h0]; rfl⟩
    | fault r | refused r => rw [h0] at h; cases h
  · intro s r h tr
    rw [own] at h
    rw [fromEmpty]
    cases h0 : step { s with trace := [] } with
    | fault r0 => rw [h0] at h; exact h
    | next t0 | refused r0 => rw [h0] at h; cases h

end Sys2Proof.Machine
end

section
/-! The state's own operations, what every instruction leaves alone, COND, RUN and the fetching step (10_state.md R14 to
R32). -/

namespace Sys2Proof.Machine

/-- Settles O2. -/
theorem registersHoldWhatIsWritten : Obligations.RegistersHoldWhatIsWritten := by
  refine ⟨fun s r q v => ⟨s.setReg_reg r q v, rfl, rfl, ?_, ⟨rfl, rfl, rfl⟩, ⟨rfl, rfl, rfl, rfl⟩⟩, by decide⟩
  intro a _
  rfl

/-- Settles O3: `setcc` writes COND alone, from a value that COND is no part of. -/
theorem setccClassifiesRegister : Obligations.SetccClassifiesRegister := by
  intro r s old
  have flag : FlagIs (setcc r s).cond (s.reg r) := by rw [setcc_cond]; exact flagIs_flagOf _
  exact ⟨flag, rfl, fun _ _ => rfl, rfl, fun _ _ => rfl, ⟨rfl, rfl, rfl⟩, ⟨rfl, rfl, rfl, rfl⟩⟩

/-- Settles O34, from the shape of each instruction's effect. -/
theorem registersWrittenAsTabled : Obligations.RegistersWrittenAsTabled :=
  fun _ _ _ h => (exec_effect h).regsKept

/-- Settles O36, from the shape of each instruction's effect. -/
theorem pcLeftAsTabled : Obligations.PcLeftAsTabled :=
  fun _ _ _ h hi => (exec_effect h).pc_eq hi

/-- Settles O38, from the shape of each instruction's effect. -/
theorem keysLeaveFromTheFront : Obligations.KeysLeaveFromTheFront :=
  fun _ _ _ h => (exec_effect h).environment

/-! ### COND (R23, R25) -/

/-- An instruction with a destination register leaves COND at the flag of that register. -/
theorem exec_cond_of_condDest {i : Instr} {s t : State} {r : Reg} (h : exec i s = .next t) (hi : condDest i = some r) :
    t.cond = flagOf (t.reg r) := by
  obtain ⟨r', hr', hc⟩ | ⟨hin, -⟩ | ⟨hd, -⟩ := (exec_effect h).cond_cases
  · obtain rfl := Option.some.inj (hr'.symm.trans hi)
    exact hc
  · exact absurd hin (condDest_some hi).2.2
  · rw [hd] at hi; cases hi

/-- IN is finished with the flag of R0 in COND, or it has left COND. -/
theorem exec_cond_of_isIn {i : Instr} {s t : State} (h : exec i s = .next t) (hi : isIn i) : InOutcome (trapEntry s) t := by
  obtain ⟨r, hr, -⟩ | ⟨-, ho⟩ | ⟨-, hin, -⟩ := (exec_effect h).cond_cases
  · exact absurd hi (condDest_some hr).2.2
  · exact ho
  · exact absurd hi hin

/-- The other instructions leave COND. -/
theorem exec_cond_kept {i : Instr} {s t : State} (h : exec i s = .next t) (hd : condDest i = none) (hin : ¬ isIn i) :
    t.cond = s.cond := by
  obtain ⟨r, hr, -⟩ | ⟨hi, -⟩ | ⟨-, -, hc⟩ := (exec_effect h).cond_cases
  · rw [hd] at hr; cases hr
  · exact absurd hi hin
  · exact hc

/-- Settles O4. Who writes COND is read off the shapes; that only BR reads it is `UnseenByExec` of the update of COND. -/
theorem onlyListedInstructionsUseCond : Obligations.OnlyListedInstructionsUseCond := by
  refine ⟨?_, ?_, fun _ _ _ => exec_cond_kept, ?_⟩
  · intro i s t r h hi
    rw [exec_cond_of_condDest h hi]
    exact flagIs_flagOf _
  · intro i s t h hi
    obtain ⟨hh, hc⟩ | ⟨hh, hc, -⟩ := exec_cond_of_isIn h hi
    · exact ⟨fun _ => hc ▸ flagIs_flagOf _, fun hn => absurd hh hn⟩
    · exact ⟨fun hn => absurd hn hh, fun _ => hc⟩
  · intro i s t c h hb
    obtain ⟨t', ht', e⟩ := (unseenByExec_setCond c).exec_next h (.inl hb)
    exact ⟨t', ht', congrArg (·.setCond .none) e⟩

/-- What may become of COND: it stays, or it takes the flag of some value. -/
def CondKeptOrSet (s t : State) : Prop := t.cond = s.cond ∨ ∃ v, t.cond = flagOf v

theorem InOutcome.condKeptOrSet {s t : State} (h : InOutcome s t) : CondKeptOrSet s t := by
  obtain ⟨-, hc⟩ | ⟨-, hc, -⟩ := h
  · exact .inr ⟨_, hc⟩
  · exact .inl hc

theorem exec_condKeptOrSet {i : Instr} {s t : State} (h : exec i s = .next t) : CondKeptOrSet s t := by
  obtain ⟨r, -, hc⟩ | ⟨-, ho⟩ | ⟨-, -, hc⟩ := (exec_effect h).cond_cases
  · exact .inr ⟨_, hc⟩
  · exact ho.condKeptOrSet
  · exact .inl hc

theorem resumeHold_condKeptOrSet (w : TrapHold) (s : State) : CondKeptOrSet s (resumeHold w s) := by
  cases w with
  | getc => exact .inl (getcRead_cond s)
  | in_ cs => exact (inFrom_outcome _ cs s).condKeptOrSet
  | echo k => exact (inEcho_outcome _ k s).condKeptOrSet
  | string form cs p => exact .inl (stringFrom_busFrame form cs p s).cond

theorem fetch_cond (s : State) : (fetch s).2.cond = s.cond := by rw [fetch_snd, State.setPc_cond, memRead_cond]

theorem step_condKeptOrSet {s t : State} (h : step s = .next t) : CondKeptOrSet s t := by
  obtain ⟨-, rfl⟩ | ⟨-, s', ht, hs⟩ := step_next_cases h
  · exact .inl rfl
  · rw [CondKeptOrSet, ← (environmentTurn_frame ht).1.cond]
    obtain ⟨w, -, rfl⟩ | ⟨-, he⟩ := hs
    · exact resumeHold_condKeptOrSet w s'
    · rw [← fetch_cond s']
      exact exec_condKeptOrSet he

/-- Settles O53: COND changes only to the flag of a value, and that is never the empty one. -/
theorem flagStaysSet : Obligations.FlagStaysSet := by
  refine ⟨?_, ?_, ?_, ?_⟩
  · intro s t h hs
    obtain hc | ⟨v, hc⟩ := step_condKeptOrSet h <;> rw [hc]
    · exact hs
    · exact flagOf_ne_none v
  · intro i s t r h hi
    rw [exec_cond_of_condDest h hi]
    exact flagOf_ne_none _
  · intro i s t h hi hh
    obtain ⟨-, hc⟩ | ⟨hn, -⟩ := exec_cond_of_isIn h hi
    · rw [hc]
      exact flagOf_ne_none _
    · exact absurd hh hn
  · intro s n z p off hc
    rw [exec_br, hc]
    rfl

/-! ### RUN (R26) -/

theorem run_halted {s : State} (h : s.run = .halted) (k : Nat) : Host.Core.run core k s = .next s := by
  induction k with
  | zero => rfl
  | succ k ih => rw [run_step k (step_halted h), ih]

theorem decodeVector_undefined {v : BitVec 8} (h : definedVector v = false) : decodeVector v = .trap v := by
  simp_all [definedVector, decodeVector]

/-- A fetched Word is never a TRAP term of a vector that has a routine's name (R74). -/
theorem decode_trap_undefined {w : Word} {v : BitVec 8} (h : decode w = .trap v) : definedVector v = false := by
  have hv : decodeVector (trapVect8 w) = .trap v := by
    unfold decode at h
    cases hop : Opcode.ofBits (opcodeField w) <;> rw [hop] at h
    case trap => exact h
    case add | and | jsr => dsimp only at h; split at h <;> cases h
    case jmp => simp only [decodeJump] at h; split at h <;> cases h
    all_goals cases h
  cases hd : definedVector (trapVect8 w) with
  | true => exact absurd hv (decodeVector_defined hd v)
  | false =>
    rw [decodeVector_undefined hd] at hv
    obtain rfl := Instr.trap.inj hv
    exact hd

theorem fetch_run (s : State) : (fetch s).2.run = s.run := by rw [fetch_snd, State.setPc_run, memRead_run]

/-- A running unit comes to be HALTED by a fetched HALT only. -/
theorem step_halts {s t : State} (hs : s.run = .running) (h : step s = .next t) (ht : t.run = .halted) :
    ∃ s', environmentTurn s = some s' ∧ s'.hold = none ∧ decode (fetch s').1 = .halt := by
  obtain ⟨hr, -⟩ | ⟨-, s', hturn, hcase⟩ := step_next_cases h
  · rw [hs] at hr; cases hr
  · have hrun : s'.run = .running := (environmentTurn_frame hturn).1.run.trans hs
    obtain ⟨w, -, rfl⟩ | ⟨hh, he⟩ := hcase
    · rw [(resumeHold_keyFrame w s').run, hrun] at ht; cases ht
    · refine ⟨s', hturn, hh, ?_⟩
      obtain hr | hi | hi := (exec_effect he).run_eq
      · rw [hr, fetch_run, hrun] at ht; cases ht
      · exact hi
      · cases decode_trap_undefined hi

/-- Settles O47. -/
theorem haltedOnlyByHaltAndForEver : Obligations.HaltedOnlyByHaltAndForEver := by
  refine ⟨rfl, fun _ k h => run_halted h k, fun _ _ => step_halts, fun s => ⟨_, exec_halt s, rfl⟩, ?_⟩
  intro i s t q h
  obtain ⟨t', ht', e⟩ := (unseenByExec_run q).exec_next h (.inr rfl)
  exact ⟨t', ht', congrArg (fun u : State => { u with run := t.run }) e⟩

/-! ### The step (R18) and reset (R32) -/

/-- Settles O44. -/
theorem stepRunsDecoded : Obligations.StepRunsDecoded := by
  intro s s' hr ht hh hp
  refine ⟨?_, fun hs => ?_⟩
  · rw [step_of_turn hr ht, hh, fetch_plain hp]
  · rw [environmentTurn_nil hs] at ht
    exact (Option.some.inj ht).symm

/-- Settles O52: reset lists no memory cell and has no trap unfinished. -/
theorem resetMeetsInvariant : Obligations.ResetMeetsInvariant :=
  ⟨Memory.wf_nil, fun h => absurd rfl h⟩

theorem withFetchWord_pc_ne (s : State) (nbits w : Nat) : (s.withFetchWord nbits w).pc ≠ Config.kbsr := by
  show (if s.pc = Config.kbsr then Config.startPc else s.pc) ≠ Config.kbsr
  split
  next => decide
  next h => exact h

theorem withFetchWord_read {s : State} (hw : s.mem.wf = true) (nbits w : Nat) :
    (s.withFetchWord nbits w).mem.read (s.withFetchWord nbits w).pc = BitVec.ofNat 16 (w % 2 ^ nbits) :=
  Memory.read_write_same _ _ hw

/-- Settles O58: the placed word lies at PC, which is not KBSR, and the environment's turn changes nothing. -/
theorem placedWordIsRun : Obligations.PlacedWordIsRun := by
  intro s w hwf hw
  have turn : environmentTurn (s.withFetchWord 16 w) = some (s.withFetchWord 16 w) := environmentTurn_nil rfl
  obtain ⟨hstep, -⟩ := stepRunsDecoded _ _ rfl turn rfl (withFetchWord_pc_ne s 16 w)
  rw [hstep, withFetchWord_read hwf, Nat.mod_eq_of_lt (by simpa using hw)]
  rfl

end Sys2Proof.Machine
end

section
/-! The loader (70_reset_and_hazards.md R166, R171): what writing an image's words at consecutive addresses does to memory,
and the precondition on an image said address by address. -/

namespace Sys2Proof.Machine

/-- The words written at consecutive addresses from `a` up, in a memory. -/
def Memory.writeWords : Word → List Word → Memory → Memory
  | _, [], m => m
  | a, w :: ws, m => Memory.writeWords (a + 1#16) ws (m.write a w)

/-- The loader writes memory and nothing else. -/
theorem loadWords_eq (a : Word) (ws : List Word) (s : State) :
    loadWords a ws s = { s with mem := Memory.writeWords a ws s.mem } := by
  induction ws generalizing a s with
  | nil => rfl
  | cons w ws ih => exact ih (a + 1#16) (s.memWrite a w)

theorem Memory.writeWords_wf (a : Word) (ws : List Word) {m : Memory} (h : m.wf = true) :
    (Memory.writeWords a ws m).wf = true := by
  induction ws generalizing a m with
  | nil => exact h
  | cons w ws ih => exact ih _ (Memory.write_wf a w h)

theorem add_ofNat_succ (a : Word) (i : Nat) : a + BitVec.ofNat 16 (i + 1) = a + 1#16 + BitVec.ofNat 16 i := by
  rw [BitVec.ofNat_add, BitVec.add_comm (BitVec.ofNat 16 i), BitVec.add_assoc]

/-- An address that no word is written to reads as before. -/
theorem Memory.read_writeWords_outside (a b : Word) (ws : List Word) (m : Memory)
    (h : ∀ i, i < ws.length → b ≠ a + BitVec.ofNat 16 i) : (Memory.writeWords a ws m).read b = m.read b := by
  induction ws generalizing a m with
  | nil => rfl
  | cons w ws ih =>
    have hb : b ≠ a := by simpa using h 0 (by simp)
    refine (ih (a + 1#16) _ fun i hi => ?_).trans (Memory.read_write_ne m w hb)
    rw [← add_ofNat_succ]
    exact h (i + 1) (by simpa using hi)

/-- Words that do not wrap onto each other are read back. -/
theorem Memory.read_writeWords_inside (a : Word) (ws : List Word) {m : Memory} (hm : m.wf = true)
    (hlen : ws.length ≤ 65536) {i : Nat} {w : Word} (hw : ws[i]? = some w) :
    (Memory.writeWords a ws m).read (a + BitVec.ofNat 16 i) = w := by
  induction ws generalizing a m i with
  | nil => cases hw
  | cons v ws ih =>
    rw [List.length_cons] at hlen
    cases i with
    | zero =>
      obtain rfl : v = w := by simpa using hw
      have fresh : ∀ j, j < ws.length → a + BitVec.ofNat 16 0 ≠ a + 1#16 + BitVec.ofNat 16 j := by
        intro j hj e
        rw [← add_ofNat_succ] at e
        have := congrArg BitVec.toNat (add_left_cancel e)
        simp at this
        omega
      rw [Memory.writeWords, Memory.read_writeWords_outside _ _ _ _ fresh]
      simpa using Memory.read_write_same a v hm
    | succ i =>
      rw [add_ofNat_succ]
      exact ih (a + 1#16) (Memory.write_wf a v hm) (by omega) (by simpa using hw)

theorem mem_imageCells (origin : Nat) (ws : List Word) (c : Nat × Word) :
    c ∈ imageCells origin ws ↔ ∃ i, c.1 = origin + i ∧ ws[i]? = some c.2 := by
  induction ws generalizing origin with
  | nil => simp [imageCells]
  | cons w ws ih =>
    rw [imageCells, List.mem_cons, ih]
    constructor
    · rintro (rfl | ⟨i, hi, hw⟩)
      · exact ⟨0, rfl, rfl⟩
      · exact ⟨i + 1, by omega, hw⟩
    · rintro ⟨i, hi, hw⟩
      cases i with
      | zero => exact .inl (Prod.ext hi (Option.some.inj hw).symm)
      | succ i => exact .inr ⟨i, by omega, hw⟩

/-- R171 said address by address. -/
theorem imageOk_iff (origin : Word) (words : List Word) :
    imageOk origin words = true ↔ origin.toNat + words.length ≤ 65536 ∧
      ∀ i w, words[i]? = some w → (origin.toNat + i = 0xFE00 ∨ origin.toNat + i = 0xFE02) → w = 0x0000#16 := by
  have cellOk (c : Nat × Word) :
      (!((c.1 == Config.kbsr.toNat || c.1 == Config.kbdr.toNat) && c.2 != 0x0000#16)) = true ↔
        (c.1 = 0xFE00 ∨ c.1 = 0xFE02 → c.2 = 0x0000#16) := by
    have hs : Config.kbsr.toNat = 0xFE00 := rfl
    have hd : Config.kbdr.toNat = 0xFE02 := rfl
    grind
  rw [imageOk, Bool.and_eq_true, decide_eq_true_iff, List.all_eq_true]
  refine and_congr_right fun _ => ⟨fun h i w hw hi => ?_, fun h c hc => ?_⟩
  · exact (cellOk _).mp (h (origin.toNat + i, w) ((mem_imageCells ..).mpr ⟨i, rfl, hw⟩)) hi
  · obtain ⟨i, hi, hw⟩ := (mem_imageCells ..).mp hc
    exact (cellOk c).mpr fun ha => h i c.2 hw (hi ▸ ha)

theorem boot_of_imageOk (startPc : Word) {origin : Word} {words : List Word} (h : imageOk origin words = true) :
    boot startPc origin words = .next { State.powerOn with mem := Memory.writeWords origin words [], pc := startPc } := by
  rw [boot, loadImage, if_pos h, loadWords_eq]; rfl

theorem boot_of_not_imageOk (startPc : Word) {origin : Word} {words : List Word} (h : imageOk origin words = false) :
    boot startPc origin words = .refused .imageRefused := by
  rw [boot, loadImage, h]; rfl

/-- Settles O59. -/
theorem bootLoadsImage : Obligations.BootLoadsImage := by
  intro startPc origin words
  refine ⟨fun hok => ⟨_, boot_of_imageOk startPc hok, ?_⟩, imageOk_iff origin words, boot_of_not_imageOk startPc⟩
  have hlen := ((imageOk_iff origin words).mp hok).1
  refine ⟨?_, ?_, ?_, rfl, rfl, rfl, Memory.writeWords_wf _ _ Memory.wf_nil, fun h => absurd rfl h⟩
  · intro i w hw
    rw [BitVec.ofNat_add, BitVec.ofNat_toNat, BitVec.setWidth_eq]
    exact Memory.read_writeWords_inside origin words Memory.wf_nil (by omega) hw
  · intro a ha
    refine Memory.read_writeWords_outside origin a words [] fun i hi e => ?_
    have htoNat := congrArg BitVec.toNat e
    simp only [BitVec.toNat_add, BitVec.toNat_ofNat] at htoNat
    omega
  · intro r
    cases r <;> rfl

end Sys2Proof.Machine
end

section
/-! Memory and the MemoryBus (20_memory.md R36 to R56): the canonical form is unique, what a read answers and changes, what
a written word outlasts, and who writes memory. -/

namespace Sys2Proof.Machine

/-! ### The canonical form (R36) -/

theorem Memory.wfFrom_cons {lo k : Nat} {v : Word} {m : Memory} :
    Memory.wfFrom lo ((k, v) :: m) = true ↔
      lo ≤ k ∧ k < Config.memWords ∧ v ≠ Config.unwritten ∧ Memory.wfFrom (k + 1) m = true := by
  simp [Memory.wfFrom, and_assoc]

/-- A canonical memory reads otherwise at its first listed address than one that lists higher addresses only. -/
theorem Memory.lookup_ne_of_first {lo k : Nat} {v : Word} {m m' : Memory} (h : Memory.wfFrom lo ((k, v) :: m) = true)
    (h' : Memory.wfFrom (k + 1) m' = true) : Memory.lookup ((k, v) :: m) k ≠ Memory.lookup m' k := by
  obtain ⟨-, -, hv, -⟩ := Memory.wfFrom_cons.mp h
  rw [Memory.lookup_of_wfFrom h' (Nat.lt_succ_self k), Memory.lookup, if_pos rfl]
  exact hv

/-- Canonical memories that read alike inside the address space are the same list, cell by cell. -/
theorem Memory.eq_of_lookup_eq {lo : Nat} {m m' : Memory} (h : Memory.wfFrom lo m = true)
    (h' : Memory.wfFrom lo m' = true) (e : ∀ a, a < Config.memWords → Memory.lookup m a = Memory.lookup m' a) :
    m = m' := by
  induction m generalizing lo m' with
  | nil =>
    cases m' with
    | nil => rfl
    | cons c' m' =>
      obtain ⟨-, hk, -, -⟩ := Memory.wfFrom_cons.mp h'
      exact absurd (e _ hk).symm (Memory.lookup_ne_of_first h' rfl)
  | cons c m ih =>
    obtain ⟨k, v⟩ := c
    obtain ⟨hlo, hk, hv, hm⟩ := Memory.wfFrom_cons.mp h
    cases m' with
    | nil => exact absurd (e k hk) (Memory.lookup_ne_of_first h rfl)
    | cons c' m' =>
      obtain ⟨k', v'⟩ := c'
      obtain ⟨hlo', hk', hv', hm'⟩ := Memory.wfFrom_cons.mp h'
      rcases Nat.lt_trichotomy k k' with hlt | rfl | hgt
      · exact absurd (e k hk) (Memory.lookup_ne_of_first h (Memory.wfFrom_cons.mpr ⟨hlt, hk', hv', hm'⟩))
      · have tails : ∀ a, a < Config.memWords → Memory.lookup m a = Memory.lookup m' a := by
          intro a ha
          by_cases hak : k = a
          · rw [Memory.lookup_of_wfFrom hm (by omega), Memory.lookup_of_wfFrom hm' (by omega)]
          · simpa [Memory.lookup, hak] using e a ha
        obtain rfl : v = v' := by simpa [Memory.lookup] using e k hk
        rw [ih hm hm' tails]
      · exact absurd (e k' hk').symm (Memory.lookup_ne_of_first h' (Memory.wfFrom_cons.mpr ⟨hgt, hk, hv, hm⟩))

/-- Settles O39. -/
theorem canonicalMemoryIsExtensional : Obligations.CanonicalMemoryIsExtensional := by
  intro m m' h h' e
  refine Memory.eq_of_lookup_eq h h' fun a ha => ?_
  have ea := e (BitVec.ofNat 16 a)
  have hmod : a % 2 ^ 16 = a := Nat.mod_eq_of_lt ha
  rwa [Memory.read, Memory.read, BitVec.toNat_ofNat, hmod] at ea

/-! ### A read of the bus (R38, R40) -/

/-- A poll that finds no key writes KBSR alone. -/
theorem memRead_keeps_of_noKey {s : State} (h : NoKey s) : MemKept [Config.kbsr] s (memRead Config.kbsr s).2 := by
  intro a ha
  rw [memRead_status, pollStatus_noKey s h]
  exact Memory.read_write_ne _ _ (by simpa using ha)

/-- Settles O40. -/
theorem busReadPollsOnlyAtStatus : Obligations.BusReadPollsOnlyAtStatus := by
  intro a s w
  refine ⟨fun r _ => memRead_reg s a r, memRead_pc s a, memRead_cond s a,
    ⟨memRead_run s a, memRead_hold s a, memRead_script s a, memRead_cut s a⟩, ?plain, ?key, ?noKey⟩
  case plain =>
    intro ha
    rw [memRead_plain s ha]
    exact ⟨rfl, fun _ _ => rfl, rfl, rfl, rfl⟩
  case key =>
    rintro rfl k rest hk
    obtain ⟨answer, code, keys, trace⟩ := memRead_status_next w hk
    exact ⟨answer, answer, code, memRead_keeps s _, keys, memRead_heldKey s _, trace⟩
  case noKey =>
    rintro rfl hk
    obtain ⟨answer, -, keys, trace⟩ := memRead_status_noKey w hk
    exact ⟨answer, answer, memRead_keeps_of_noKey hk, keys, memRead_heldKey s _, trace⟩

/-- Settles O42: with two keys both reads find one; with one key the second read finds none. -/
theorem statusReadConsumesKey : Obligations.StatusReadConsumesKey := by
  intro s c w hh
  have w' := memRead_wf s Config.kbsr w
  constructor
  · intro d rest hk
    obtain ⟨answer, -, keys, -⟩ := memRead_status_next w (.inl hk)
    obtain ⟨answer', code', keys', -⟩ := memRead_status_next w' (.inl keys)
    exact ⟨answer, answer', code', keys'⟩
  · intro hk
    obtain ⟨answer, code, keys, -⟩ := memRead_status_next w (.inl hk)
    obtain ⟨answer', code', -, -⟩ := memRead_status_noKey w' ⟨keys, (memRead_heldKey s _).trans hh⟩
    refine ⟨answer, ?_, answer', code'.trans code⟩
    rw [memRead_plain _ (show Config.kbdr ≠ Config.kbsr by decide), code]

/-! ### What a written word outlasts (R53, R56) -/

/-- A read leaves every word but KBSR, and KBDR too unless its poll finds a key. -/
theorem memRead_outlasted {a : Word} (ha : a ≠ Config.kbsr) (b : Word) (s : State) :
    ∃ ev, (memRead b s).2.trace = s.trace ++ ev ∧
      ((a = Config.kbdr → ∀ k, Event.pollKey (some k) ∉ ev) → (memRead b s).2.mem.read a = s.mem.read a) := by
  rcases memRead_cases s b with ⟨-, e⟩ | ⟨-, k, rest, -, e⟩ | ⟨-, -, e⟩ <;> rw [e]
  · exact ⟨[], by simp, fun _ => rfl⟩
  · refine ⟨[.pollKey (some k)], rfl, fun quiet => ?_⟩
    have hd : a ≠ Config.kbdr := fun hd => quiet hd k List.mem_cons_self
    exact (Memory.read_write_ne _ _ hd).trans (Memory.read_write_ne _ _ ha)
  · exact ⟨[.pollKey none], rfl, fun _ => Memory.read_write_ne _ _ ha⟩

/-- Accesses that do not write a word leave it, if it is not KBSR, nor KBDR while a poll among them finds a key. -/
theorem runBus_outlasted {a : Word} (ha : a ≠ Config.kbsr) {ops : List BusOp} (hops : a ∉ writtenByBus ops) (s : State) :
    ∃ ev, (runBus ops s).trace = s.trace ++ ev ∧
      ((a = Config.kbdr → ∀ k, Event.pollKey (some k) ∉ ev) → (runBus ops s).mem.read a = s.mem.read a) := by
  induction ops generalizing s with
  | nil => exact ⟨[], by simp [runBus], fun _ => rfl⟩
  | cons op ops ih =>
    cases op with
    | read b =>
      obtain ⟨ev, trace, kept⟩ := memRead_outlasted ha b s
      obtain ⟨ev', trace', kept'⟩ := ih hops (memRead b s).2
      refine ⟨ev ++ ev', by rw [runBus, trace', trace, List.append_assoc], fun quiet => ?_⟩
      have first := kept fun hd k hk => quiet hd k (List.mem_append_left _ hk)
      have later := kept' fun hd k hk => quiet hd k (List.mem_append_right _ hk)
      exact later.trans first
    | write b v =>
      obtain ⟨hb, hops⟩ := List.ne_and_not_mem_of_not_mem_cons hops
      obtain ⟨ev, trace, kept⟩ := ih hops (s.memWrite b v)
      exact ⟨ev, trace, fun quiet => (kept quiet).trans (Memory.read_write_ne _ _ hb)⟩

theorem memRead_memWrite_same {s : State} (w : s.mem.wf = true) {a : Word} (ha : a ≠ Config.kbsr) (v : Word) :
    (memRead a (s.memWrite a v)).1 = v := by
  rw [memRead_plain _ ha]
  exact Memory.read_write_same a v w

/-- A read of KBSR answers by the console alone: the word that was written there does not count. -/
theorem memRead_status_memWrite {s : State} (w : s.mem.wf = true) (v v' : Word) :
    (memRead Config.kbsr (s.memWrite Config.kbsr v)).1 = (memRead Config.kbsr (s.memWrite Config.kbsr v')).1 := by
  have wf (u : Word) : (s.memWrite Config.kbsr u).mem.wf = true := Memory.write_wf _ u w
  rcases nextKey_or_noKey s with ⟨k, rest, hk⟩ | hk
  · have answer (u : Word) := (memRead_status_next (wf u) (k := k) (rest := rest) hk).1
    rw [answer v, answer v']
  · have answer (u : Word) := (memRead_status_noKey (wf u) hk).1
    rw [answer v, answer v']

/-- Settles O41. -/
theorem busRoundTrip : Obligations.BusRoundTrip := by
  intro a v s w
  have stored : (s.memWrite a v).mem.read a = v := Memory.read_write_same a v w
  refine ⟨fun ha => memRead_memWrite_same w ha v, ?_, ?_, ?_⟩
  · intro ops ha hd hops
    obtain ⟨_, -, kept⟩ := runBus_outlasted ha hops (s.memWrite a v)
    rw [memRead_plain _ ha]
    exact (kept fun e => absurd e hd).trans stored
  · rintro ops rfl hops quiet
    have ha : Config.kbdr ≠ Config.kbsr := by decide
    obtain ⟨ev, trace, kept⟩ := runBus_outlasted ha hops (s.memWrite Config.kbdr v)
    rw [memRead_plain _ ha]
    exact (kept fun _ => quiet ev trace).trans stored
  · rintro v' rfl
    exact memRead_status_memWrite w v v'

theorem fetch_memWrite {s : State} (w : s.mem.wf = true) {a : Word} (ha : a ≠ Config.kbsr) (v : Word) :
    (fetch ((s.memWrite a v).setPc a)).1 = v := by
  rw [fetch_plain ha]
  exact Memory.read_write_same a v w

/-- Settles O43. -/
theorem storeIsSeenByNextFetch : Obligations.StoreIsSeenByNextFetch := by
  intro s sr w
  refine ⟨?st, ?str, ?sti⟩
  case st =>
    intro off t h ha
    obtain rfl := Host.Outcome.next.inj h
    exact fetch_memWrite w ha _
  case str =>
    intro base off t h ha
    obtain rfl := Host.Outcome.next.inj h
    exact fetch_memWrite w ha _
  case sti =>
    intro off t h ha
    obtain rfl := Host.Outcome.next.inj ((exec_sti s sr off).symm.trans h)
    exact fetch_memWrite (memRead_wf s _ w) ha _

/-! ### Who writes memory (R37) -/

/-- Memory differs at KBSR and KBDR at most, and not at all unless a poll is recorded. -/
def MemOnlyByPoll (s t : State) : Prop :=
  MemKept [Config.kbsr, Config.kbdr] s t ∧
    ∃ ev, t.trace = s.trace ++ ev ∧ ((∀ k, Event.pollKey k ∉ ev) → t.mem = s.mem)

theorem memOnlyByPoll_of_mem_eq {s t : State} {ev : List Event} (hm : t.mem = s.mem) (he : t.trace = s.trace ++ ev) :
    MemOnlyByPoll s t := ⟨fun _ _ => by rw [hm], ev, he, fun _ => hm⟩

theorem Effect.memOnlyByPoll {i : Instr} {s t : State} (h : Effect i s t) (hi : isStore i = false) :
    MemOnlyByPoll s t := by
  cases h with
  | dest _ hm => exact ⟨hm.mem, hm.trace⟩
  | store hs => rw [hs] at hi; cases hi
  | jump | link | halt => exact memOnlyByPoll_of_mem_eq rfl (List.append_nil _).symm
  | report => exact memOnlyByPoll_of_mem_eq rfl rfl
  | output _ _ ht => exact ⟨ht.mem, ht.trace⟩
  | input _ _ ht => exact ⟨ht.mem, ht.trace⟩

/-- Settles O35, from the shape of each instruction's effect. -/
theorem memoryWrittenOnlyByStores : Obligations.MemoryWrittenOnlyByStores := by
  intro i s t h hi
  obtain ⟨kept, ev, he, unpolled⟩ := (exec_effect h).memOnlyByPoll hi
  refine ⟨kept, fun ev' he' quiet a _ => ?_⟩
  obtain rfl : ev = ev' := List.append_cancel_left (he.symm.trans he')
  rw [unpolled quiet]

end Sys2Proof.Machine
end

section
/-! The invariant of a step: memory in canonical form, and an unfinished trap in a running unit with R7 = PC (20_memory.md R36,
43_trap.md R115, R125). With it the step that fetches from KBSR (R54). -/

namespace Sys2Proof.Machine

/-! ### What an instruction does to the invariant -/

theorem Effect.wf {i : Instr} {s t : State} (h : Effect i s t) (w : s.mem.wf = true) : t.mem.wf = true := by
  cases h with
  | dest _ hm => exact hm.wf w
  | store _ hm => exact Memory.write_wf _ _ (hm.wf w)
  | jump | link | report | halt => exact w
  | output _ _ ht => exact ht.wf w
  | input _ _ ht => exact ht.wf w

/-- No instruction but a trap leaves a routine unfinished. -/
theorem exec_hold {i : Instr} {s t : State} (h : exec i s = .next t) (hi : isTrap i = false) : t.hold = s.hold := by
  cases i <;> obtain rfl := Host.Outcome.next.inj h
  case br => split <;> rfl
  case ld | ldr => exact loadFrom_hold ..
  case ldi => exact (loadFrom_hold ..).trans (memRead_hold ..)
  case sti => exact memRead_hold ..
  case add | addImm | and | andImm | not | lea | st | str | jsr | jsrr | jmp | ret | rti | res => rfl
  case trap | getc | out | puts | in_ | putsp | halt => cases hi

theorem isTrap_excludes {i : Instr} (h : isTrap i = true) : isStore i = false ∧ isTransfer i = false := by
  cases i <;> simp_all [isTrap, isStore, isTransfer]

/-- A trap leaves the return address in R7 and PC at it; and it leaves RUN, or it is HALT and leaves `hold` (R115). -/
theorem Effect.trap {i : Instr} {s t : State} (h : Effect i s t) (hi : isTrap i = true) :
    t.reg .r7 = t.pc ∧ (t.run = s.run ∨ t.hold = s.hold) := by
  cases h with
  | dest hd => rw [(isTrap_tables hi).1] at hd; cases hd
  | store hs => rw [(isTrap_excludes hi).1] at hs; cases hs
  | jump hj => rw [(isTrap_excludes hi).2] at hj; cases hj
  | link hj => rw [(isTrap_excludes hi).2] at hj; cases hj
  | report hr => rcases hr with rfl | rfl <;> cases hi
  | output _ _ ht => exact ⟨(ht.reg _).trans ((trapEntry_r7 s).trans ht.pc.symm), .inl ht.run⟩
  | input _ _ ht => exact ⟨(ht.regs _ (by decide)).trans ((trapEntry_r7 s).trans ht.pc.symm), .inl ht.run⟩
  | halt => exact ⟨trapEntry_r7 s, .inr rfl⟩

/-- An instruction of a running unit with no trap unfinished leaves the invariant. -/
theorem exec_stepInv {i : Instr} {s t : State} (w : s.mem.wf = true) (hr : s.run = .running) (hh : s.hold = none)
    (h : exec i s = .next t) : StepInv t := by
  have effect := exec_effect h
  refine ⟨effect.wf w, fun unfinished => ?_⟩
  cases hi : isTrap i with
  | false => exact absurd ((exec_hold h hi).trans hh) unfinished
  | true =>
    obtain ⟨linked, hrun | hhold⟩ := effect.trap hi
    · exact ⟨hrun.trans hr, linked⟩
    · exact absurd (hhold.trans hh) unfinished

/-! ### The step -/

/-- The environment's turn keeps the invariant: it sees neither memory nor what the unit is doing. -/
theorem TurnFrame.stepInv {s s' : State} (h : TurnFrame s s') (inv : StepInv s) : StepInv s' := by
  obtain ⟨w, waiting⟩ := inv
  refine ⟨h.mem ▸ w, fun unfinished => ?_⟩
  obtain ⟨hr, linked⟩ := waiting (h.hold ▸ unfinished)
  refine ⟨h.run.trans hr, ?_⟩
  rw [State.reg, h.regs, h.pc]
  exact linked

/-- The rest of an unfinished trap keeps the invariant: it may write R0, but neither R7, PC nor RUN. -/
theorem resumeHold_stepInv {h : TrapHold} {s : State} (hs : s.hold = some h) (inv : StepInv s) :
    StepInv (resumeHold h s) := by
  obtain ⟨w, waiting⟩ := inv
  obtain ⟨hr, linked⟩ := waiting (by simp [hs])
  have frame := resumeHold_keyFrame h s
  exact ⟨frame.wf w, fun _ => ⟨frame.run.trans hr, (frame.regs .r7 (by decide)).trans (linked.trans frame.pc.symm)⟩⟩

theorem fetch_hold (s : State) : (fetch s).2.hold = s.hold := by rw [fetch_snd, State.setPc_hold, memRead_hold]

theorem fetch_wf {s : State} (w : s.mem.wf = true) : (fetch s).2.mem.wf = true := by
  rw [fetch_snd, State.setPc_mem]
  exact memRead_wf s s.pc w

/-- Settles O51: the turn keeps the invariant, and so does each of the two things a running unit can do after it. -/
theorem stepKeepsInvariant : Obligations.StepKeepsInvariant := by
  intro s t inv h
  obtain ⟨-, rfl⟩ | ⟨hr, s', hturn, hcase⟩ := step_next_cases h
  · exact inv
  · have frame := (environmentTurn_frame hturn).1
    have inv' := frame.stepInv inv
    obtain ⟨w, hw, rfl⟩ | ⟨hh, he⟩ := hcase
    · exact resumeHold_stepInv hw inv'
    · exact exec_stepInv (fetch_wf inv'.1) ((fetch_run s').trans (frame.run.trans hr)) ((fetch_hold s').trans hh) he

/-! ### A fetch from KBSR (R54) -/

/-- Settles O46: the poll answers RTI's Word, which is reported, or BR's with an empty mask, which is not taken. -/
theorem fetchFromStatusPolls : Obligations.FetchFromStatusPolls := by
  intro s s' w hr ht hh hp
  have frame := (environmentTurn_frame ht).1
  have w' : s'.mem.wf = true := frame.mem ▸ w
  have hstep := step_of_turn hr ht
  rw [hh, fetch_fst, fetch_snd, hp] at hstep
  have regs (q : Reg) : (memRead Config.kbsr s').2.reg q = s.reg q := by
    rw [memRead_reg, State.reg, State.reg, frame.regs]
  have cond : (memRead Config.kbsr s').2.cond = s.cond := (memRead_cond s' _).trans frame.cond
  constructor
  · intro k rest hk
    obtain ⟨answer, code, keys, trace⟩ := memRead_status_next w' hk
    rw [answer, show decode 0x8000#16 = .rti 0#12 by decide, exec_rti] at hstep
    refine ⟨_, hstep, rfl, code, keys, ?_, fun q _ => regs q, cond⟩
    have address : ((memRead Config.kbsr s').2.setPc (Config.kbsr + 1#16)).instrAddress = 0xFE00#16 :=
      show Config.kbsr + 1#16 - 1#16 = 0xFE00#16 by decide
    rw [State.emit_trace, State.setPc_trace, trace, frame.trace, List.append_assoc, address,
      show (0x8#4 ++ 0#12 : Word) = 0x8000#16 by decide, List.singleton_append]
  · intro hk
    obtain ⟨answer, -, keys, trace⟩ := memRead_status_noKey w' hk
    have notTaken (c : Cond) : brTaken false false false c = false := by cases c <;> rfl
    rw [answer, show decode 0x0000#16 = .br false false false 0#9 by decide, exec_br, notTaken] at hstep
    refine ⟨_, hstep, rfl, fun a ha => ?_, keys, ?_, fun q _ => regs q, cond⟩
    · exact (memRead_keeps_of_noKey hk a ha).trans (by rw [frame.mem])
    · exact trace.trans (by rw [frame.trace])

end Sys2Proof.Machine
end

section
/-! The encoder and the decoder against one another (30_encoding.md R60 to R75): the way round from an instruction, which fields
of a Word fix its instruction, and that they are the significant bits of it. -/

namespace Sys2Proof

open Machine

/-! ### From an instruction to its word and back (R62, R63, R75) -/

theorem decode_encode {i : Instr} (h : i.wellFormed = true) : decode (encode i) = i :=
  match i, h with
  | .br n z p off, h => Laws.RoundTrip.br n z p off h
  | .add dr sr1 sr2, h => Laws.RoundTrip.add dr sr1 sr2 h
  | .addImm dr sr1 imm, h => Laws.RoundTrip.addImm dr sr1 imm h
  | .ld dr off, h => Laws.RoundTrip.ld dr off h
  | .st sr off, h => Laws.RoundTrip.st sr off h
  | .jsr off, h => Laws.RoundTrip.jsr off h
  | .jsrr base, h => Laws.RoundTrip.jsrr base h
  | .and dr sr1 sr2, h => Laws.RoundTrip.and dr sr1 sr2 h
  | .andImm dr sr1 imm, h => Laws.RoundTrip.andImm dr sr1 imm h
  | .ldr dr base off, h => Laws.RoundTrip.ldr dr base off h
  | .str sr base off, h => Laws.RoundTrip.str sr base off h
  | .rti bits, h => Laws.RoundTrip.rti bits h
  | .not dr sr, h => Laws.RoundTrip.not dr sr h
  | .ldi dr off, h => Laws.RoundTrip.ldi dr off h
  | .sti sr off, h => Laws.RoundTrip.sti sr off h
  | .jmp base, h => Laws.RoundTrip.jmp base h
  | .res bits, h => Laws.RoundTrip.res bits h
  | .lea dr off, h => Laws.RoundTrip.lea dr off h
  | .trap vect, h => Laws.RoundTrip.trap vect h
  | .getc, h => Laws.RoundTrip.getc h
  | .out, h => Laws.RoundTrip.out h
  | .puts, h => Laws.RoundTrip.puts h
  | .in_, h => Laws.RoundTrip.in_ h
  | .putsp, h => Laws.RoundTrip.putsp h
  | .halt, h => Laws.RoundTrip.halt h
  | .ret, h => Laws.RoundTrip.ret h

/-- Settles O55: the decoder is a left inverse of the encoder on well-formed instructions. -/
theorem decodeReadsEncodedBack : Obligations.DecodeReadsEncodedBack := by
  refine ⟨fun i => decode_encode, fun i j hi hj h => ?_⟩
  rw [← decode_encode hi, h, decode_encode hj]

/-- Settles O57. -/
theorem sampleWordsDecode : Obligations.SampleWordsDecode := by
  refine ⟨?_, ?_, ?_, ?_, ?_, ?_, ?_, ?_⟩ <;> decide

/-! ### Which row of the opcode table an instruction belongs to (R61, R74) -/

theorem Opcode.ofBits_injective : Function.Injective Opcode.ofBits := by
  intro a b; revert a b; decide

theorem Reg.ofBits_injective : Function.Injective Reg.ofBits :=
  Function.LeftInverse.injective Reg.toBits_ofBits

/-- The base register is read back from the jump it gives. -/
theorem reg8_6_encode_decodeJump (r : Reg) : reg8_6 (encode (decodeJump r)) = r := by
  cases r <;> decide

/-- The vector is read back from the trap it gives. -/
theorem trapVect8_encode_decodeVector (v : BitVec 8) : trapVect8 (encode (decodeVector v)) = v := by
  rcases vector_cases v with rfl | rfl | rfl | rfl | rfl | rfl | h
  iterate 6 · decide
  · rw [decodeVector_undefined h]
    exact (fields_TRAP _ _ v).2

theorem decodeJump_inj {r q : Reg} : decodeJump r = decodeJump q ↔ r = q :=
  Function.Injective.eq_iff (Function.LeftInverse.injective (g := reg8_6 ∘ encode) reg8_6_encode_decodeJump)

theorem decodeVector_inj {v u : BitVec 8} : decodeVector v = decodeVector u ↔ v = u :=
  Function.Injective.eq_iff (Function.LeftInverse.injective (g := trapVect8 ∘ encode) trapVect8_encode_decodeVector)

theorem decodeJump_wellFormed (r : Reg) : (decodeJump r).wellFormed = true := by
  cases r <;> rfl

theorem decodeVector_wellFormed (v : BitVec 8) : (decodeVector v).wellFormed = true := by
  rcases vector_cases v with rfl | rfl | rfl | rfl | rfl | rfl | h
  iterate 6 · rfl
  · rw [decodeVector_undefined h, Instr.wellFormed, h, Bool.not_false]

/-- The opcode of the row an instruction belongs to. -/
def Instr.opcode : Instr → Opcode
  | .br _ _ _ _ => .br
  | .add _ _ _ | .addImm _ _ _ => .add
  | .ld _ _ => .ld
  | .st _ _ => .st
  | .jsr _ | .jsrr _ => .jsr
  | .and _ _ _ | .andImm _ _ _ => .and
  | .ldr _ _ _ => .ldr
  | .str _ _ _ => .str
  | .rti _ => .rti
  | .not _ _ => .not
  | .ldi _ _ => .ldi
  | .sti _ _ => .sti
  | .jmp _ | .ret => .jmp
  | .res _ => .res
  | .lea _ _ => .lea
  | .trap _ | .getc | .out | .puts | .in_ | .putsp | .halt => .trap

theorem decodeJump_opcode (r : Reg) : (decodeJump r).opcode = .jmp := by
  cases r <;> rfl

theorem decodeVector_opcode (v : BitVec 8) : (decodeVector v).opcode = .trap := by
  rcases vector_cases v with rfl | rfl | rfl | rfl | rfl | rfl | h
  iterate 6 · rfl
  · rw [decodeVector_undefined h, Instr.opcode]

theorem decode_wellFormed (w : Word) : (decode w).wellFormed = true := by
  cases h : Opcode.ofBits (opcodeField w) <;> simp only [decode, h]
  case add | and | jsr => split <;> rfl
  case jmp => exact decodeJump_wellFormed _
  case trap => exact decodeVector_wellFormed _
  all_goals rfl

theorem decode_opcode (w : Word) : (decode w).opcode = Opcode.ofBits (opcodeField w) := by
  cases h : Opcode.ofBits (opcodeField w) <;> simp only [decode, h]
  case add | and | jsr => split <;> rfl
  case jmp => exact decodeJump_opcode _
  case trap => exact decodeVector_opcode _
  all_goals rfl

/-! ### The fields that fix an instruction (R63, R65, R67) -/

/-- A field of a Word: its lowest bit and its width. -/
abbrev BitField := Nat × Nat

/-- The fields the decoder reads to come to an instruction, opcode and mode bit among them: the formats of R63 without the
bits marked "ign". -/
def Instr.fields : Instr → List BitField
  | .br _ _ _ _ => [(12, 4), (11, 1), (10, 1), (9, 1), (0, 9)]
  | .add _ _ _ | .and _ _ _ => [(12, 4), (5, 1), (9, 3), (6, 3), (0, 3)]
  | .addImm _ _ _ | .andImm _ _ _ => [(12, 4), (5, 1), (9, 3), (6, 3), (0, 5)]
  | .ld _ _ | .st _ _ | .ldi _ _ | .sti _ _ | .lea _ _ => [(12, 4), (9, 3), (0, 9)]
  | .ldr _ _ _ | .str _ _ _ => [(12, 4), (9, 3), (6, 3), (0, 6)]
  | .not _ _ => [(12, 4), (9, 3), (6, 3)]
  | .jmp _ | .ret => [(12, 4), (6, 3)]
  | .jsr _ => [(12, 4), (11, 1), (0, 11)]
  | .jsrr _ => [(12, 4), (11, 1), (6, 3)]
  | .rti _ | .res _ => [(12, 4), (0, 12)]
  | .trap _ | .getc | .out | .puts | .in_ | .putsp | .halt => [(12, 4), (0, 8)]

/-- Two Words agree on every field of the instruction. -/
def AgreeOn (i : Instr) (a b : Word) : Prop := ∀ f ∈ i.fields, a.extractLsb' f.1 f.2 = b.extractLsb' f.1 f.2

/-- The significant bits of an instruction are the bits of its fields. -/
theorem significantBits_iff (i : Instr) : ∀ k < 16,
    (significantBits i).getLsbD k = true ↔ ∃ f ∈ i.fields, f.1 ≤ k ∧ k < f.1 + f.2 := by
  cases i <;> simp only [significantBits, Instr.fields] <;> decide

theorem fields_within (i : Instr) : ∀ f ∈ i.fields, f.1 + f.2 ≤ 16 := by
  cases i <;> simp only [Instr.fields] <;> decide

/-- To agree on an instruction's fields is to agree on its significant bits. -/
theorem agreeOn_iff_masked (i : Instr) (a b : Word) :
    AgreeOn i a b ↔ a &&& significantBits i = b &&& significantBits i := by
  constructor
  · refine fun agree => masked_eq fun k hk hm => ?_
    obtain ⟨f, hf, lo, hi⟩ := (significantBits_iff i k hk).mp hm
    have bit := congrArg (·.getLsbD (k - f.1)) (agree f hf)
    have inside : k - f.1 < f.2 := by omega
    simpa [BitVec.getLsbD_extractLsb', inside, Nat.add_sub_cancel' lo] using bit
  · refine fun masked f hf => field_eq fun k hk => ?_
    have within := fields_within i f hf
    exact getLsbD_of_masked masked _
      ((significantBits_iff i _ (by omega)).mpr ⟨f, hf, Nat.le_add_right _ _, by omega⟩)

theorem decodeJump_fields (r : Reg) : (decodeJump r).fields = [(12, 4), (6, 3)] := by
  cases r <;> rfl

theorem decodeVector_fields (v : BitVec 8) : (decodeVector v).fields = [(12, 4), (0, 8)] := by
  rcases vector_cases v with rfl | rfl | rfl | rfl | rfl | rfl | h
  iterate 6 · rfl
  · rw [decodeVector_undefined h, Instr.fields]

theorem opcode_mem_fields (i : Instr) : (12, 4) ∈ i.fields := by
  cases i <;> exact List.mem_cons_self

theorem reg11_9_eq_iff {a b : Word} : reg11_9 a = reg11_9 b ↔ a.extractLsb' 9 3 = b.extractLsb' 9 3 :=
  Reg.ofBits_injective.eq_iff

theorem reg8_6_eq_iff {a b : Word} : reg8_6 a = reg8_6 b ↔ a.extractLsb' 6 3 = b.extractLsb' 6 3 :=
  Reg.ofBits_injective.eq_iff

theorem reg2_0_eq_iff {a b : Word} : reg2_0 a = reg2_0 b ↔ a.extractLsb' 0 3 = b.extractLsb' 0 3 :=
  Reg.ofBits_injective.eq_iff

theorem extractLsb'_one_eq_iff {a b : Word} (k : Nat) :
    a.extractLsb' k 1 = b.extractLsb' k 1 ↔ a.getLsbD k = b.getLsbD k := by
  constructor
  · exact fun h => by simpa using congrArg (·.getLsbD 0) h
  · exact fun h => field_eq fun i hi => by rwa [Nat.lt_one_iff.mp hi]

theorem immMode_eq_iff {a b : Word} : immMode a = immMode b ↔ a.extractLsb' 5 1 = b.extractLsb' 5 1 :=
  (extractLsb'_one_eq_iff 5).symm

theorem jsrMode_eq_iff {a b : Word} : jsrMode a = jsrMode b ↔ a.extractLsb' 11 1 = b.extractLsb' 11 1 :=
  (extractLsb'_one_eq_iff 11).symm

/-- Between Words of one opcode: each row compares its operands, which are its fields; in the rows with a mode bit the two forms
are told apart by that bit. -/
theorem decode_eq_iff_of_opcode {a b : Word} (same : opcodeField a = opcodeField b) :
    decode a = decode b ↔ AgreeOn (decode b) a b := by
  have opcodeBits : a.extractLsb' 12 4 = b.extractLsb' 12 4 := same
  cases h : Opcode.ofBits (opcodeField b) <;> simp only [decode, same, h]
  case add | and =>
    cases ma : immMode a <;> cases mb : immMode b <;>
      simp [AgreeOn, Instr.fields, opcodeBits, ← immMode_eq_iff, ma, mb, reg11_9_eq_iff, reg8_6_eq_iff, reg2_0_eq_iff, imm5]
  case jsr =>
    cases ma : jsrMode a <;> cases mb : jsrMode b <;>
      simp [AgreeOn, Instr.fields, opcodeBits, ← jsrMode_eq_iff, ma, mb, reg8_6_eq_iff, pcOffset11]
  case br => simp [AgreeOn, Instr.fields, opcodeBits, extractLsb'_one_eq_iff, pcOffset9]
  case jmp => simp [AgreeOn, decodeJump_fields, decodeJump_inj, opcodeBits, reg8_6_eq_iff]
  case trap => simp [AgreeOn, decodeVector_fields, decodeVector_inj, opcodeBits, trapVect8]
  case ld | st | ldi | sti | lea => simp [AgreeOn, Instr.fields, opcodeBits, reg11_9_eq_iff, pcOffset9]
  case ldr | str => simp [AgreeOn, Instr.fields, opcodeBits, reg11_9_eq_iff, reg8_6_eq_iff, offset6]
  case not => simp [AgreeOn, Instr.fields, opcodeBits, reg11_9_eq_iff, reg8_6_eq_iff]
  case rti | res => simp [AgreeOn, Instr.fields, opcodeBits, low12]

/-- A Word decodes as another exactly when they agree on the fields of that one's instruction. -/
theorem decode_eq_iff_agreeOn (a b : Word) : decode a = decode b ↔ AgreeOn (decode b) a b := by
  by_cases same : opcodeField a = opcodeField b
  · exact decode_eq_iff_of_opcode same
  · refine iff_of_false (fun e => same (Opcode.ofBits_injective ?_)) fun agree => same (agree (12, 4) (opcode_mem_fields _))
    rw [← decode_opcode, ← decode_opcode, e]

/-- A Word decodes as another exactly when they agree on the significant bits of that one's instruction. -/
theorem decode_eq_iff_masked (a b : Word) :
    decode a = decode b ↔ a &&& significantBits (decode b) = b &&& significantBits (decode b) :=
  (decode_eq_iff_agreeOn a b).trans (agreeOn_iff_masked _ a b)

/-- Settles O56: a Word and the word of its instruction decode alike, so they agree on the significant bits. -/
theorem everyWordIsItsInstruction : Obligations.EveryWordIsItsInstruction := by
  refine ⟨decode_wellFormed, fun w => ?_, fun w w' => (decode_eq_iff_masked w' w).mpr⟩
  exact (decode_eq_iff_masked _ w).mp (decode_encode (decode_wellFormed w))

end Sys2Proof
end

section
/-! Steps that end (30_encoding.md R68, 43_trap.md R126, 60_exceptions.md R149): every instruction answers a next state, and in
an environment that lets the unit be, every routine is finished in its step or waits for a key. -/

namespace Sys2Proof.Machine

/-- Every arm of `exec` is a next state, whatever the state before (R68, R140). -/
theorem exec_answers (i : Instr) (s : State) : ∃ t, exec i s = .next t := by
  cases i <;> exact ⟨_, rfl⟩

/-- After the environment's turn a running unit always answers a next state. -/
theorem runningStep_answers (s : State) : ∃ t, runningStep s = .next t := by
  unfold runningStep
  split
  · exact ⟨_, rfl⟩
  · exact exec_answers _ _

/-- Settles O49: only the environment's turn can be without an outcome, and then it holds an abort. -/
theorem stepNeverRefuses : Obligations.StepNeverRefuses := by
  refine ⟨exec_answers, fun s => ?_⟩
  cases hr : s.run with
  | halted => exact .inl ⟨s, step_halted hr⟩
  | running =>
    rw [step_running hr, environmentStep]
    cases ht : environmentTurn s with
    | some s' => exact .inl (runningStep_answers s')
    | none => exact .inr ⟨rfl, rfl, (environmentTurn_eq_none s).mp ht⟩

/-! ### The environment that lets the unit be -/

/-- A state from which the unit's part of a step is neither cut nor kept going by a held key, with memory canonical. -/
structure Undisturbed (s : State) : Prop where
  wf      : s.mem.wf = true
  cut     : s.cut = none
  heldKey : s.heldKey = none

/-- Pressing and releasing keys neither cuts nor holds a key down nor ends the run. -/
theorem applyTurn_undisturbed {as : List EnvAction} (h : ∀ a ∈ as, a = .release ∨ ∃ k, a = .press k) {s : State}
    (hs : Undisturbed s) : ∃ s', applyTurn as s = some s' ∧ Undisturbed s' := by
  induction as generalizing s with
  | nil => exact ⟨s, rfl, hs⟩
  | cons a as ih =>
    have later : ∀ b ∈ as, b = .release ∨ ∃ k, b = .press k := fun b hb => h b (List.mem_cons_of_mem _ hb)
    rcases h a List.mem_cons_self with rfl | ⟨k, rfl⟩
    · exact ih later (s := s.setHeldKey none) ⟨hs.wf, hs.cut, rfl⟩
    · exact ih later (s := s.setKeys (s.keys ++ [k])) ⟨hs.wf, hs.cut, hs.heldKey⟩

theorem environmentTurn_undisturbed {s : State} (w : s.mem.wf = true) (h : OrdinaryEnvironment s) :
    ∃ s', environmentTurn s = some s' ∧ Undisturbed s' := by
  obtain ⟨noHeldKey, ordinary⟩ := h
  cases hs : s.script with
  | nil => exact ⟨_, environmentTurn_nil hs, w, rfl, noHeldKey⟩
  | cons as ts =>
    rw [environmentTurn_cons hs]
    exact applyTurn_undisturbed (ordinary as (by rw [hs]; rfl)) ⟨w, rfl, noHeldKey⟩

theorem fetch_undisturbed {s : State} (h : Undisturbed s) : Undisturbed (fetch s).2 where
  wf      := fetch_wf h.wf
  cut     := by rw [fetch_snd, State.setPc_cut, memRead_cut, h.cut]
  heldKey := by rw [fetch_snd, State.setPc_heldKey, memRead_heldKey, h.heldKey]

theorem trapEntry_undisturbed {s : State} (h : Undisturbed s) : Undisturbed (trapEntry s) :=
  ⟨h.wf, h.cut, h.heldKey⟩

/-! ### Finished, or waiting for a key -/

/-- No routine is left, or it waits for a key that the console does not have (R125). -/
def FinishedOrWaits (t : State) : Prop := t.hold = none ∨ (WaitsForKey t ∧ NoKey t)

theorem getcRead_finishedOrWaits (s : State) : FinishedOrWaits (getcRead s) := by
  rcases nextKey_or_noKey s with ⟨k, rest, h⟩ | h
  · rw [getcRead_next h]
    exact .inl rfl
  · rw [getcRead_noKey h]
    exact .inr ⟨.inl rfl, h⟩

/-- IN at its key read, with the echo allowed too. -/
theorem inRead_finishedOrWaits (n : Nat) (s : State) : FinishedOrWaits (inRead (n + 1) s) := by
  rcases nextKey_or_noKey s with ⟨k, rest, h⟩ | h
  · rw [inRead_next _ h]
    exact .inl rfl
  · rw [inRead_noKey _ h]
    exact .inr ⟨.inr rfl, h⟩

theorem inRoutineWith_finishedOrWaits (prompt : List Word) {s : State} (h : s.cut = none) :
    FinishedOrWaits (inRoutineWith prompt s) := by
  rw [inRoutineWith_whole h]
  exact inRead_finishedOrWaits 0 _

/-- With no held key every string has an end, and it is reached in the step (R126). -/
theorem stringFrom_finished (form : StringForm) (codes : List Word) (p : Word) {s : State} (h : Undisturbed s) :
    (stringFrom form codes p s).hold = none := by
  rw [stringFrom, State.allowed_none h.cut]
  obtain ends | ⟨held, -⟩ := stringOps_enough form codes p s h.wf
  · exact ends
  · exact absurd h.heldKey held

theorem resumeHold_finishedOrWaits (w : TrapHold) {s : State} (h : Undisturbed s) : FinishedOrWaits (resumeHold w s) := by
  cases w with
  | getc => exact getcRead_finishedOrWaits s
  | in_ prompt => exact inRoutineWith_finishedOrWaits prompt h.cut
  | echo k =>
    rw [resumeHold, State.allowed_none h.cut]
    exact .inl rfl
  | string form codes p => exact .inl (stringFrom_finished form codes p h)

theorem trapRoutine_finishedOrWaits (v : BitVec 8) {s : State} (h : Undisturbed s) (hh : s.hold = none) :
    FinishedOrWaits (trapRoutine v s) := by
  rcases vector_cases v with rfl | rfl | rfl | rfl | rfl | rfl | undefinedVector
  · exact getcRead_finishedOrWaits s
  · exact .inl hh
  · exact .inl (stringFrom_finished _ _ _ h)
  · exact inRoutineWith_finishedOrWaits _ h.cut
  · exact .inl (stringFrom_finished _ _ _ h)
  · exact .inl hh
  · rw [trapRoutine_undefined undefinedVector]
    exact .inl hh

/-- A named routine does what the TRAP of its vector does (R74). -/
theorem exec_eq_trap {i : Instr} (h : isTrap i = true) : ∃ v, ∀ s, exec i s = exec (.trap v) s := by
  cases i
  case trap v => exact ⟨v, fun _ => rfl⟩
  case getc => exact ⟨0x20#8, fun _ => rfl⟩
  case out => exact ⟨0x21#8, fun _ => rfl⟩
  case puts => exact ⟨0x22#8, fun _ => rfl⟩
  case in_ => exact ⟨0x23#8, fun _ => rfl⟩
  case putsp => exact ⟨0x24#8, fun _ => rfl⟩
  case halt => exact ⟨0x25#8, fun _ => rfl⟩
  all_goals cases h

/-- No instruction but a trap leaves a routine unfinished, and no trap leaves one that could go on. -/
theorem exec_finishedOrWaits {i : Instr} {s t : State} (h : Undisturbed s) (hh : s.hold = none) (he : exec i s = .next t) :
    FinishedOrWaits t := by
  cases hi : isTrap i with
  | false => exact .inl ((exec_hold he hi).trans hh)
  | true =>
    obtain ⟨v, same⟩ := exec_eq_trap hi
    rw [same, exec_trap] at he
    obtain rfl := Host.Outcome.next.inj he
    exact trapRoutine_finishedOrWaits v (trapEntry_undisturbed h) hh

/-- Settles O50: the environment leaves the unit undisturbed, and then neither an unfinished routine nor the next instruction
can stop short of its end but for a key. -/
theorem ordinaryStepCompletes : Obligations.OrdinaryStepCompletes := by
  intro s w hr ordinary
  obtain ⟨s', turn, undisturbed⟩ := environmentTurn_undisturbed w ordinary
  cases hh : s'.hold with
  | some waiting =>
    have unfinished : s.hold = some waiting := (environmentTurn_frame turn).1.hold ▸ hh
    exact ⟨_, step_resumes hr turn unfinished, resumeHold_finishedOrWaits waiting undisturbed⟩
  | none =>
    obtain ⟨t, ht⟩ := exec_answers (decode (fetch s').1) (fetch s').2
    refine ⟨t, ?_, exec_finishedOrWaits (fetch_undisturbed undisturbed) ((fetch_hold s').trans hh) ht⟩
    rw [step_of_turn hr turn, hh, ht]

end Sys2Proof.Machine
end

section
/-! The operate instructions ADD, AND, NOT (40_operate.md R80 to R85). Each is one `setRegCc`, so `setRegCc_writesDest`
gives what is written and what stays; what is left is the arithmetic of the value. -/

namespace Sys2Proof.Machine

/-- Adding a sign-extended field is adding its signed value, modulo 2^16 (R6). -/
theorem toNat_add_sext {n : Nat} (hn : n ≤ 16) (a : Word) (field : BitVec n) :
    ((a + sext field).toNat : Int) = (a.toNat + field.toInt) % 65536 := by
  have signed : (sext field).toInt = field.toInt := toInt_sext hn field
  rw [BitVec.toInt_eq_toNat_cond] at signed
  rw [BitVec.toNat_add]
  split at signed <;> omega

/-- Bit by bit, AND with a sign-extended field is AND with its bits and, above them, its sign bit; past bit 15 the Word
has only zeros. -/
theorem getLsbD_and_sext {n : Nat} (a : Word) (field : BitVec n) (i : Nat) :
    (a &&& sext field).getLsbD i = (a.getLsbD i && if i < n then field.getLsbD i else field.msb) := by
  rw [BitVec.getLsbD_and]
  by_cases hi : i < 16
  · rw [getLsbD_sext field hi]
  · simp [BitVec.getLsbD_of_ge a i (by omega)]

/-- The mask of NOT is all ones, so the exclusive or with it is the complement. -/
theorem xor_notMask (a : Word) : a ^^^ 0xFFFF#16 = ~~~a := BitVec.xor_allOnes

/-- Settles O5: the register form adds Words; the immediate form adds the signed value of imm5. -/
theorem addGivesSumModulo : Obligations.AddGivesSumModulo := by
  refine ⟨fun dr sr1 sr2 s => ?_, fun dr sr1 imm s => ?_⟩
  · exact ⟨_, _, exec_add s dr sr1 sr2, setRegCc_writesDest .., BitVec.toNat_add ..⟩
  · exact ⟨_, _, exec_addImm s dr sr1 imm, setRegCc_writesDest .., toNat_add_sext (by decide) _ imm⟩

/-- Settles O6: the sign bit of imm5 is its bit 4. -/
theorem andGivesBitwiseAnd : Obligations.AndGivesBitwiseAnd := by
  refine ⟨fun dr sr1 sr2 s => ?_, fun dr sr1 imm s => ?_⟩
  · exact ⟨_, _, exec_and s dr sr1 sr2, setRegCc_writesDest .., fun _ => BitVec.getLsbD_and⟩
  · refine ⟨_, _, exec_andImm s dr sr1 imm, setRegCc_writesDest .., fun i => ?_⟩
    rw [getLsbD_and_sext, BitVec.msb_eq_getLsbD_last]

/-- Settles O7: the value is the complement, whose bits below 16 are the inverted ones. -/
theorem notInvertsEveryBit : Obligations.NotInvertsEveryBit := by
  intro dr sr s
  refine ⟨_, _, exec_not s dr sr, setRegCc_writesDest .., fun i hi => ?_⟩
  rw [xor_notMask, BitVec.getLsbD_not, decide_eq_true hi, Bool.true_and]

end Sys2Proof.Machine
end

section
/-! Control transfer BR, JMP, RET, JSR, JSRR (41_control.md R90 to R96). Each is one write of PC, over the state after the
fetch or over that state with R7 linked, so two frame lemmas give what is written and what stays. -/

namespace Sys2Proof.Machine

/-! ### The frames of the two shapes -/

theorem setPc_writesPc (s : State) (v : Word) : WritesPc v [] s (s.setPc v) :=
  ⟨rfl, fun _ _ => rfl, rfl, fun _ _ => rfl, ⟨rfl, rfl, rfl⟩, ⟨rfl, rfl, rfl, rfl⟩⟩

/-- A link (R16), then a write of PC: these two and nothing else change. -/
theorem setReg_setPc_writesPc (s : State) (r : Reg) (ret v : Word) : WritesPc v [r] s ((s.setReg r ret).setPc v) := by
  have others : RegsKept [r] s ((s.setReg r ret).setPc v) := fun _ hq =>
    s.setReg_reg_ne ret (List.ne_of_not_mem_cons hq)
  exact ⟨rfl, others, rfl, fun _ _ => rfl, ⟨rfl, rfl, rfl⟩, ⟨rfl, rfl, rfl, rfl⟩⟩

/-! ### BR (R90) -/

/-- With no flag set, no mask takes the branch. -/
theorem brTaken_iff (n z p : Bool) (c : Cond) :
    brTaken n z p c = true ↔ (n = true ∧ c = .n) ∨ (z = true ∧ c = .z) ∨ (p = true ∧ c = .p) := by
  cases c <;> simp [brTaken]

/-- A branch that is not taken writes PC with the value it has. -/
theorem exec_br_setPc (s : State) (n z p : Bool) (off : BitVec 9) :
    exec (.br n z p off) s = .next (s.setPc (if brTaken n z p s.cond then pcRelative s off else s.pc)) := by
  rw [exec_br]
  split <;> rfl

/-- Settles O8: a taken branch adds the signed value of PCoffset9 to PC. -/
theorem branchTakenByMask : Obligations.BranchTakenByMask := by
  intro n z p off s
  refine ⟨_, exec_br_setPc s n z p off, setPc_writesPc .., ?_⟩
  simp only [← brTaken_iff, State.setPc_pc]
  split
  next => exact toNat_add_sext (by decide) s.pc off
  next => rfl

/-! ### JMP and RET (R91, R92) -/

/-- Settles O9. -/
theorem jumpTakesRegister : Obligations.JumpTakesRegister :=
  ⟨fun base s => ⟨_, exec_jmp s base, setPc_writesPc ..⟩, fun s => ⟨_, exec_ret s, setPc_writesPc ..⟩⟩

/-! ### JSR and JSRR (R93, R94) -/

/-- Settles O10: the link leaves PC, so the target is PC-relative to a + 1. -/
theorem jsrLinksAndBranches : Obligations.JsrLinksAndBranches := by
  intro off s
  have linked : ((s.setReg .r7 s.pc).setPc (s.pc + sext off)).reg .r7 = s.pc := s.setReg_reg_same .r7 s.pc
  exact ⟨_, exec_jsr s off, setReg_setPc_writesPc .., linked, toNat_add_sext (by decide) s.pc off⟩

/-- Settles O11: the base is read in the linked state, where R7 is a + 1 and every other register what it was (D23). -/
theorem jsrrLinksBeforeReading : Obligations.JsrrLinksBeforeReading := by
  intro base s
  have target := s.setReg_reg .r7 base s.pc
  exact ⟨_, exec_jsrr s base, s.setReg_reg_same .r7 s.pc, target ▸ setReg_setPc_writesPc ..⟩

end Sys2Proof.Machine
end

section
/-! Loads and stores LD, LDI, LDR, LEA, ST, STI, STR (42_load_store.md R100 to R109). A load is bus reads and one
`setRegCc`; `busReadPollsOnlyAtStatus` says what each read answers and changes. A store is
one `memWrite` over the state after its bus read, if it has one. -/

namespace Sys2Proof.Machine

/-! ### The addresses (R100) -/

theorem toNat_pcRelative (s : State) (off : BitVec 9) :
    ((pcRelative s off).toNat : Int) = (s.pc.toNat + off.toInt) % 65536 := toNat_add_sext (by decide) s.pc off

theorem toNat_baseOffset (s : State) (base : Reg) (off : BitVec 6) :
    ((baseOffset s base off).toNat : Int) = ((s.reg base).toNat + off.toInt) % 65536 :=
  toNat_add_sext (by decide) (s.reg base) off

/-! ### The store (R39) -/

/-- A store changes its word and nothing else, at KBSR and KBDR as elsewhere (R109). -/
theorem memWrite_writesWord {s : State} (w : s.mem.wf = true) (a v : Word) : WritesWord a v s (s.memWrite a v) := by
  have others : MemKept [a] s (s.memWrite a v) := fun _ hb =>
    Memory.read_write_ne s.mem v (List.ne_of_not_mem_cons hb)
  exact ⟨Memory.read_write_same a v w, others, fun _ _ => rfl, rfl, rfl, ⟨rfl, rfl, rfl⟩, ⟨rfl, rfl, rfl, rfl⟩⟩

/-! ### STI and then LDI (R108) -/

/-- STI through a pointer outside KBSR stores over the unchanged state. -/
theorem exec_sti_plain {s : State} {off : BitVec 9} (hp : pcRelative s off ≠ Config.kbsr) (sr : Reg) :
    exec (.sti sr off) s = .next (s.memWrite (s.mem.read (pcRelative s off)) (s.reg sr)) := by
  rw [exec_sti, memRead_plain s hp]

/-- LDI whose pointer is `q`, and neither read at KBSR, polls nothing and loads the word at `q`. -/
theorem exec_ldi_plain {s : State} {off : BitVec 9} {q v : Word} (hp : pcRelative s off ≠ Config.kbsr)
    (hq : q ≠ Config.kbsr) (pointer : s.mem.read (pcRelative s off) = q) (data : s.mem.read q = v) (dr : Reg) :
    exec (.ldi dr off) s = .next (setRegCc dr v s) := by
  rw [exec_ldi, memRead_plain s hp, pointer, loadFrom_eq, memRead_plain s hq, data]

/-- Settles O19: the store is not at the pointer (D24), so LDI reads the pointer that STI read, then the stored Word. -/
theorem stiThenLdiRoundTrip : Obligations.StiThenLdiRoundTrip := by
  intro sr dr off off' s t u w same hp hq hqp hsti hldi
  obtain rfl := Host.Outcome.next.inj ((exec_sti_plain hp sr).symm.trans hsti)
  generalize hread : s.mem.read (pcRelative s off) = q at hq hqp hldi
  have pointer : (s.mem.write q (s.reg sr)).read (pcRelative s off) = q :=
    (Memory.read_write_ne s.mem (s.reg sr) hqp.symm).trans hread
  have data : (s.mem.write q (s.reg sr)).read q = s.reg sr := Memory.read_write_same q (s.reg sr) w
  rw [same] at hp pointer
  have loaded := exec_ldi_plain (s := (s.memWrite q (s.reg sr)).setPc (s.pc + 1#16)) hp hq pointer data dr
  obtain rfl := Host.Outcome.next.inj (loaded.symm.trans hldi)
  obtain ⟨value, flag, -, pc, -⟩ := setRegCc_writesDest _ dr (s.reg sr)
  exact ⟨value, flag, pc⟩

/-! ### Loads (R101 to R104) -/

/-- Settles O12. -/
theorem ldLoadsFromPcRelative : Obligations.LdLoadsFromPcRelative := by
  intro dr off s w
  exact ⟨_, _, _, toNat_pcRelative s off, busReadPollsOnlyAtStatus _ s w, exec_ld s dr off, loadFrom_writesDest ..⟩

/-- Settles O13: the data is read in the state after the pointer's read, whose memory is canonical again. -/
theorem ldiLoadsThroughPointer : Obligations.LdiLoadsThroughPointer := by
  intro dr off s w
  have w' := memRead_wf s (pcRelative s off) w
  exact ⟨_, _, _, _, _, toNat_pcRelative s off, busReadPollsOnlyAtStatus _ s w, busReadPollsOnlyAtStatus _ _ w',
    exec_ldi s dr off, loadFrom_writesDest ..⟩

/-- Settles O14: the address is computed in the state before the load, so DR may be the base. -/
theorem ldrLoadsFromBaseOffset : Obligations.LdrLoadsFromBaseOffset := by
  intro dr base off s w
  exact ⟨_, _, _, toNat_baseOffset s base off, busReadPollsOnlyAtStatus _ s w, exec_ldr s dr base off,
    loadFrom_writesDest ..⟩

/-- Settles O15. -/
theorem leaGivesAddress : Obligations.LeaGivesAddress := by
  intro dr off s
  exact ⟨_, _, exec_lea s dr off, setRegCc_writesDest .., toNat_pcRelative s off⟩

/-! ### Stores (R105 to R107) -/

/-- Settles O16. -/
theorem stStoresAtPcRelative : Obligations.StStoresAtPcRelative := by
  intro sr off s w
  exact ⟨_, toNat_pcRelative s off, exec_st s sr off, memWrite_writesWord w ..⟩

/-- Settles O17: only the pointer's read is on the bus; the store is over the state after it. -/
theorem stiStoresThroughPointer : Obligations.StiStoresThroughPointer := by
  intro sr off s w
  have w' := memRead_wf s (pcRelative s off) w
  exact ⟨_, _, _, toNat_pcRelative s off, busReadPollsOnlyAtStatus _ s w, exec_sti s sr off,
    memWrite_writesWord w' ..⟩

/-- Settles O18. -/
theorem strStoresAtBaseOffset : Obligations.StrStoresAtBaseOffset := by
  intro sr base off s w
  exact ⟨_, toNat_baseOffset s base off, exec_str s sr base off, memWrite_writesWord w ..⟩

end Sys2Proof.Machine
end

section
/-! The trap instructions of one step (43_trap.md R115 to R123): the vectors, OUT and HALT, and the
key reads of GETC and IN. -/

namespace Sys2Proof.Machine

/-! ### Registers kept (R15) -/

theorem RegsKept.trans {ws ws' : List Reg} {s t u : State} (h : RegsKept ws s t) (g : RegsKept ws' t u) :
    RegsKept (ws ++ ws') s u := by
  intro q hq
  obtain ⟨hw, hw'⟩ := not_or.mp (mt List.mem_append.mpr hq)
  exact (g q hw').trans (h q hw)

theorem setReg_regsKept (s : State) (r : Reg) (v : Word) : RegsKept [r] s (s.setReg r v) := fun _ hq =>
  State.setReg_reg_ne _ v (List.ne_of_not_mem_cons hq)

theorem trapEntry_regsKept (s : State) : RegsKept [.r7] s (trapEntry s) := setReg_regsKept s .r7 s.pc

theorem writeChars_regsKept (ws : List Word) (s : State) : RegsKept [] s (writeChars ws s) := fun q _ =>
  writeChars_reg s ws q

theorem writeChars_memKept (ws : List Word) (s : State) : MemKept [] s (writeChars ws s) := fun a _ =>
  congrArg (Memory.read · a) (writeChars_mem s ws)

/-! ### The vectors (R115, R123, R142) -/

theorem definedVector_iff (v : BitVec 8) : definedVector v = true ↔ 0x20 ≤ v.toNat ∧ v.toNat ≤ 0x25 := by
  simp only [definedVector, Bool.or_eq_true, beq_iff_eq, ← BitVec.toNat_inj, BitVec.toNat_ofNat]
  omega

/-- Settles O20: each defined vector decodes to the instruction whose routine it selects, any other to TRAP itself. -/
theorem trapDispatchesOnVector : Obligations.TrapDispatchesOnVector := by
  intro v s
  refine ⟨?_, definedVector_iff v⟩
  rcases vector_cases v with rfl | rfl | rfl | rfl | rfl | rfl | undefinedVector
  case inr.inr.inr.inr.inr.inr => rw [decodeVector_undefined undefinedVector]
  all_goals rfl

/-- Settles O21: after trap entry nothing is left to do, and trap entry is the link. -/
theorem undefinedVectorOnlyLinks : Obligations.UndefinedVectorOnlyLinks := by
  intro v s outside
  have undefinedVector : definedVector v = false := by
    rw [Bool.eq_false_iff, Ne, definedVector_iff]
    omega
  exact ⟨_, exec_trap_undefined s undefinedVector, trapEntry_r7 s, setReg_setPc_writesPc s .r7 s.pc s.pc⟩

/-! ### OUT and HALT (R118, R122) -/

/-- Settles O26: one character over the state after trap entry, R0 read before (D10). -/
theorem outWritesWholeWord : Obligations.OutWritesWholeWord := by
  intro s
  exact ⟨_, exec_out s, rfl, trapEntry_r7 s, trapEntry_regsKept s, rfl, rfl, fun _ _ => rfl, rfl, rfl,
    ⟨rfl, rfl, rfl, rfl⟩⟩

/-- Settles O31. -/
theorem haltStopsTheRun : Obligations.HaltStopsTheRun := by
  intro s
  exact ⟨_, exec_halt s, rfl, trapEntry_r7 s, trapEntry_regsKept s, rfl, rfl, fun _ _ => rfl,
    ⟨rfl, rfl, rfl⟩, rfl, rfl, rfl⟩

/-! ### The key reads of GETC and IN (R117, R120) -/

theorem finishGetc_r0 (k : Word) (s : State) : (finishGetc k s).reg .r0 = k := State.setReg_reg_same _ .r0 k

theorem finishGetc_regsKept (k : Word) (s : State) : RegsKept [.r0] s (finishGetc k s) :=
  setReg_regsKept (s.emit (.readKey k)) .r0 k

theorem finishIn_r0 (k : Word) (s : State) : (finishIn k s).reg .r0 = k := setRegCc_reg_same _ .r0 k

theorem finishIn_cond (k : Word) (s : State) : FlagIs (finishIn k s).cond k := by
  rw [finishIn, State.setHold_cond, setRegCc_cond]
  exact flagIs_flagOf k

theorem finishIn_regsKept (k : Word) (s : State) : RegsKept [.r0] s (finishIn k s) :=
  setReg_regsKept (writeChar k s) .r0 k

theorem finishIn_trace (k : Word) (s : State) : (finishIn k s).trace = s.trace ++ [.writeChar k] := rfl

/-- IN, not cut, on a console with a key: trap entry, the prompt, the key, the echo. -/
theorem exec_in_next {s : State} {k : Word} {rest : List Word} (h : NextKey k rest s) (hc : s.cut = none) :
    exec .in_ s = .next (finishIn k
      (((writeChars Config.inPrompt (trapEntry s)).setKeys rest).emit (.readKey k))) := by
  have prompted : NextKey k rest (writeChars Config.inPrompt (trapEntry s)) := by simpa [NextKey] using h
  rw [exec_in_, inRoutine, inRoutineWith_whole (by exact hc), inRead_next 1 prompted, inEcho]

/-- IN, not cut, on a console with no key: trap entry, the prompt, the wait. -/
theorem exec_in_noKey {s : State} (h : NoKey s) (hc : s.cut = none) :
    exec .in_ s = .next ((writeChars Config.inPrompt (trapEntry s)).setHold (some (.in_ []))) := by
  have prompted : NoKey (writeChars Config.inPrompt (trapEntry s)) := by simpa [NoKey] using h
  rw [exec_in_, inRoutine, inRoutineWith_whole (by exact hc), inRead_noKey 1 prompted]

/-- Settles O22. -/
theorem getcTakesPendingKey : Obligations.GetcTakesPendingKey := by
  intro s k rest hk
  have getc : exec .getc s = .next (finishGetc k ((trapEntry s).setKeys rest)) := by
    rw [exec_getc, getcRead_next (by exact hk)]
  refine ⟨_, getc, finishGetc_r0 .., ?_, (trapEntry_regsKept s).trans (finishGetc_regsKept k _), rfl, rfl,
    fun _ _ => rfl, rfl, rfl, rfl, rfl, rfl, rfl, rfl⟩
  rw [finishGetc_regsKept k _ .r7 (by decide), State.setKeys_reg, trapEntry_r7]

/-- Settles O23: `finishIn` gives R0, COND and the echo, the prompt stands before it in the record. -/
theorem inPromptsReadsAndEchoes : Obligations.InPromptsReadsAndEchoes := by
  intro s k rest hk hc
  have kept : RegsKept [.r7] s (writeChars Config.inPrompt (trapEntry s)) :=
    (trapEntry_regsKept s).trans (writeChars_regsKept _ _)
  refine ⟨_, exec_in_next hk hc, finishIn_r0 .., finishIn_cond .., ?r7, kept.trans (finishIn_regsKept k _), ?pc,
    writeChars_memKept Config.inPrompt (trapEntry s), rfl, ?heldKey, ?trace, ?run, rfl, ?script, ?cut⟩
  case r7 => rw [finishIn_regsKept k _ .r7 (by decide)]; simp
  case trace => rw [finishIn_trace]; simp
  all_goals simp [finishIn, writeChar]

/-- Settles O24. -/
theorem getcAndInWaitForKey : Obligations.GetcAndInWaitForKey := by
  intro s hk
  constructor
  case left =>
    have getc : exec .getc s = .next ((trapEntry s).setHold (some .getc)) := by
      rw [exec_getc, getcRead_noKey (by exact hk)]
    exact ⟨_, getc, rfl, rfl, trapEntry_r7 s, trapEntry_regsKept s, rfl, rfl, fun _ _ => rfl, rfl, rfl, rfl, rfl, rfl⟩
  case right =>
    intro hc
    have kept : RegsKept [.r7] s (writeChars Config.inPrompt (trapEntry s)) :=
      (trapEntry_regsKept s).trans (writeChars_regsKept _ _)
    refine ⟨_, exec_in_noKey hk hc, rfl, ?_, ?_, kept, ?_, ?_, writeChars_memKept Config.inPrompt (trapEntry s), ?_⟩
    all_goals simp [hc]

end Sys2Proof.Machine
end

section
/-! The wait of GETC and IN (43_trap.md R125): what its step does with a key and without, and how long it lasts. -/

namespace Sys2Proof.Machine

/-! ### The unit kept (R125) -/

theorem UnitKept.refl (s : State) : UnitKept s s := ⟨fun _ _ => rfl, rfl, rfl, rfl, fun _ _ => rfl, rfl, rfl⟩

theorem MemKept.trans {ws ws' : List Word} {s t u : State} (h : MemKept ws s t) (g : MemKept ws' t u) :
    MemKept (ws ++ ws') s u := by
  intro a ha
  obtain ⟨hw, hw'⟩ := not_or.mp (mt List.mem_append.mpr ha)
  exact (g a hw').trans (h a hw)

theorem TurnFrame.regsKept {s t : State} (h : TurnFrame s t) : RegsKept [] s t := fun q _ =>
  congrArg (RegFile.get · q) h.regs

theorem TurnFrame.memKept {s t : State} (h : TurnFrame s t) : MemKept [] s t := fun a _ =>
  congrArg (Memory.read · a) h.mem

theorem TurnFrame.unitKept {s t : State} (h : TurnFrame s t) : UnitKept s t :=
  ⟨h.regsKept, h.pc, h.cond, h.run, h.memKept, h.hold, h.trace⟩

theorem UnitKept.trans {s t u : State} (h : UnitKept s t) (g : UnitKept t u) : UnitKept s u := by
  obtain ⟨regs, pc, cond, run, mem, hold, trace⟩ := h
  obtain ⟨regs', pc', cond', run', mem', hold', trace'⟩ := g
  exact ⟨regs.trans regs', pc'.trans pc, cond'.trans cond, run'.trans run, mem.trans mem', hold'.trans hold,
    trace'.trans trace⟩

theorem UnitKept.run {s t : State} (h : UnitKept s t) : t.run = s.run := by
  obtain ⟨-, -, -, run, -⟩ := h
  exact run

theorem UnitKept.hold {s t : State} (h : UnitKept s t) : t.hold = s.hold := by
  obtain ⟨-, -, -, -, -, hold, -⟩ := h
  exact hold

theorem WaitsForKey.unfinished {s : State} (h : WaitsForKey s) : ∃ w, s.hold = some w := by
  rcases h with hs | hs
  · exact ⟨_, hs⟩
  · exact ⟨_, hs⟩

theorem UnitKept.waitsForKey {s t : State} (h : UnitKept s t) (hw : WaitsForKey s) : WaitsForKey t := by
  rwa [WaitsForKey, h.hold]

/-- A wait that ends, counted from an earlier state of the same wait. -/
theorem UnitKept.waitEnded {s t u : State} {k : Word} {rest : List Word} (h : UnitKept s t) (g : WaitEnded k rest t u) :
    WaitEnded k rest s u := by
  obtain ⟨regs, pc, cond, run, mem, hold, trace⟩ := h
  obtain ⟨hold', r0, regs', pc', run', mem', keys, getc, in_⟩ := g
  rw [hold, trace] at getc in_
  rw [cond] at getc
  exact ⟨hold', r0, regs.trans regs', pc'.trans pc, run'.trans run, mem.trans mem', keys, getc, in_⟩

/-! ### The key of a wait (R117, R120) -/

/-- The unit of `s` has taken the key `k` in `t`, and `rest` stay pending; the key is recorded and not yet used. -/
structure KeyTaken (k : Word) (rest : List Word) (s t : State) : Prop where
  regs  : RegsKept [] s t
  pc    : t.pc = s.pc
  cond  : t.cond = s.cond
  run   : t.run = s.run
  mem   : MemKept [] s t
  keys  : t.keys = rest
  trace : t.trace = s.trace ++ [.readKey k]

/-- ReadKey takes the key from a unit that has waited. -/
theorem UnitKept.keyTaken {s t : State} (h : UnitKept s t) (k : Word) (rest : List Word) :
    KeyTaken k rest s ((t.setKeys rest).emit (.readKey k)) := by
  obtain ⟨regs, pc, cond, run, mem, -, trace⟩ := h
  exact ⟨regs, pc, cond, run, mem, rfl, congrArg (· ++ [Event.readKey k]) trace⟩

/-- The environment's turn leaves a key that is taken, and may add to the pending ones. -/
theorem KeyTaken.turn {k : Word} {rest : List Word} {s t t' : State} (h : KeyTaken k rest s t) (f : TurnFrame t t') :
    KeyTaken k t'.keys s t' :=
  ⟨h.regs.trans f.regsKept, f.pc.trans h.pc, f.cond.trans h.cond, f.run.trans h.run, h.mem.trans f.memKept, rfl,
    f.trace.trans h.trace⟩

/-- What is left of the routine, and of the script, is no part of it. -/
theorem KeyTaken.left {k : Word} {rest : List Word} {s t : State} (h : KeyTaken k rest s t) (w : Option TrapHold)
    (ts : List (List EnvAction)) : KeyTaken k rest s ((t.setHold w).setScript ts) :=
  ⟨h.regs, h.pc, h.cond, h.run, h.mem, h.keys, h.trace⟩

/-- GETC ends with R0 (R117). -/
theorem KeyTaken.getc_ended {k : Word} {rest : List Word} {s t : State} (h : KeyTaken k rest s t)
    (hs : s.hold = some .getc) : WaitEnded k rest s ((t.setReg .r0 k).setHold none) := by
  refine ⟨rfl, t.setReg_reg_same .r0 k, h.regs.trans (setReg_regsKept t .r0 k), h.pc, h.run, h.mem, h.keys,
    fun _ => ⟨h.cond, h.trace⟩, fun hin => ?_⟩
  rw [hs] at hin
  cases hin

/-- IN ends with the echo, R0 and COND (R120). -/
theorem KeyTaken.in_ended {k : Word} {rest : List Word} {s t : State} (h : KeyTaken k rest s t)
    (hs : s.hold = some (.in_ [])) : WaitEnded k rest s (finishIn k t) := by
  refine ⟨rfl, finishIn_r0 .., h.regs.trans (finishIn_regsKept k t), h.pc, h.run, h.mem, h.keys, fun hgetc => ?_,
    fun _ => ⟨finishIn_cond .., ?_⟩⟩
  · rw [hs] at hgetc
    cases hgetc
  · rw [finishIn_trace, h.trace, List.append_assoc]
    rfl

/-! ### The step of a wait -/

/-- A cut that lets `m` operations through, or none at all, leaves at least `m` allowed (R163). -/
theorem State.le_allowed {s : State} {m full : Nat} (hfull : m ≤ full) (hcut : ∀ n, s.cut = some n → m ≤ n) :
    m ≤ s.allowed full := by
  cases hc : s.cut with
  | none => rwa [State.allowed_none hc]
  | some n => rw [State.allowed_some hc]; exact hcut n hc

section
variable {s s' : State} {k : Word} {rest : List Word} (hr : s.run = .running) (turn : environmentTurn s = some s')
include hr turn

/-- With no key after the environment's turn the wait goes on (R125). -/
theorem step_waits (hw : WaitsForKey s) (hk : NoKey s') : step s = .next s' := by
  have kept := (environmentTurn_frame turn).1.unitKept
  obtain ⟨w, hs⟩ := hw.unfinished
  rw [step_resumes hr turn hs, resumeHold_noKey (kept.hold.trans hs) (kept.waitsForKey hw) hk]

theorem step_getc_next (hs : s.hold = some .getc) (hk : NextKey k rest s') :
    step s = .next (finishGetc k (s'.setKeys rest)) := by
  rw [step_resumes hr turn hs, resumeHold, getcRead_next hk]

/-- IN that is not cut before its echo ends. -/
theorem step_in_next (hs : s.hold = some (.in_ [])) (hk : NextKey k rest s') (hc : ∀ n, s'.cut = some n → 2 ≤ n) :
    step s = .next (finishIn k ((s'.setKeys rest).emit (.readKey k))) := by
  obtain ⟨n, hn⟩ : ∃ n, s'.allowed 2 = n + 2 := Nat.exists_eq_add_of_le' (State.le_allowed le_rfl hc)
  rw [step_resumes hr turn hs, resumeHold, List.length_nil, Nat.zero_add, hn, inFrom_nil, inRead_next _ hk, inEcho]

/-- IN that is cut before its key is read waits on. -/
theorem step_in_cut_key (hs : s.hold = some (.in_ [])) (hc : s'.cut = some 0) : step s = .next s' := by
  have hs' : s'.hold = some (.in_ []) := (environmentTurn_frame turn).1.hold.trans hs
  rw [step_resumes hr turn hs, resumeHold, State.allowed_some hc, inFrom_stop, ← hs']
  rfl

/-- IN that is cut before its echo has read its key and still has to echo it. -/
theorem step_in_cut_echo (hs : s.hold = some (.in_ [])) (hk : NextKey k rest s') (hc : s'.cut = some 1) :
    step s = .next (((s'.setKeys rest).emit (.readKey k)).setHold (some (.echo k))) := by
  rw [step_resumes hr turn hs, resumeHold, State.allowed_some hc, inFrom_nil, inRead_next _ hk, inEcho]

/-- The echo that was cut off is written by a step that is not cut before it. -/
theorem step_echo (hs : s.hold = some (.echo k)) (hc : s'.cut ≠ some 0) : step s = .next (finishIn k s') := by
  have uncut : ∀ n, s'.cut = some n → 1 ≤ n := by
    rintro (- | n) hn
    · exact absurd hn hc
    · exact Nat.le_add_left 1 n
  obtain ⟨n, hn⟩ : ∃ n, s'.allowed 1 = n + 1 := Nat.exists_eq_add_of_le' (State.le_allowed le_rfl uncut)
  rw [step_resumes hr turn hs, resumeHold, hn, inEcho]

/-- A key after the environment's turn ends GETC, and IN that is not cut before its echo. -/
theorem step_ends_wait (hw : WaitsForKey s) (hk : NextKey k rest s')
    (uncut : s.hold = some .getc ∨ ∀ n, s'.cut = some n → 2 ≤ n) :
    ∃ t, step s = .next t ∧ WaitEnded k rest s t ∧ t.heldKey = s'.heldKey := by
  have taken := (environmentTurn_frame turn).1.unitKept.keyTaken k rest
  by_cases hs : s.hold = some .getc
  · exact ⟨_, step_getc_next hr turn hs hk, taken.getc_ended hs, rfl⟩
  · have hin := hw.resolve_left hs
    exact ⟨_, step_in_next hr turn hin hk (uncut.resolve_left hs), taken.in_ended hin, rfl⟩

end

/-- An abort in the coming turn ends the run (R163). -/
theorem step_aborted {s : State} {as : List EnvAction} (hr : s.run = .running) (hs : s.script.head? = some as)
    (h : EnvAction.abort ∈ as) : step s = .fault .aborted := by
  rw [step_running hr, environmentStep, (environmentTurn_eq_none s).mpr ⟨as, hs, h⟩]

/-! ### A wait of any length -/

/-- One step more, at the end of a run. -/
theorem run_succ_of_run {s w : State} {j : Nat} (h : Host.Core.run core j s = .next w) :
    Host.Core.run core (j + 1) s = step w := by
  have general : ∀ (M : Host.Core) (j : Nat) (x y : M.State), M.run j x = .next y → M.run (j + 1) x = M.step y := by
    intro M j
    induction j with
    | zero =>
      intro x y e
      obtain rfl := Host.Outcome.next.inj e
      rw [Host.Core.run]
      cases M.step x <;> rfl
    | succ j ih =>
      intro x y e
      rw [Host.Core.run] at e ⊢
      cases hx : M.step x with
      | next z => rw [hx] at e; exact ih z y e
      | fault r => rw [hx] at e; cases e
      | refused r => rw [hx] at e; cases e
  exact general core j s w h

/-- While the turns give no key, the wait uses them up and the unit stays as it is (R125). -/
theorem run_waits {s : State} (hr : s.run = .running) (hw : WaitsForKey s) (hk : NoKey s) (j : Nat)
    (quiet : ∀ turn, turn ∈ s.script.take j → GivesNoKey turn) :
    ∃ w : State, Host.Core.run core j s = .next w ∧ UnitKept s w ∧ NoKey w ∧ w.script = s.script.drop j := by
  induction j with
  | zero => exact ⟨s, rfl, .refl s, hk, rfl⟩
  | succ j ih =>
    obtain ⟨w, run, kept, noKey, script⟩ := ih fun turn h => quiet turn (List.take_subset_take_left _ (Nat.le_succ j) h)
    have next : ∀ turn, turn ∈ w.script.take 1 → GivesNoKey turn := by
      intro turn h
      rw [script, List.take_drop] at h
      exact quiet turn (List.mem_of_mem_drop h)
    obtain ⟨n, turn⟩ := environmentTurn_givesNoKey noKey next
    refine ⟨_, (run_succ_of_run run).trans (step_waits (kept.run.trans hr) turn (kept.waitsForKey hw) noKey),
      kept.trans (environmentTurn_frame turn).1.unitKept, noKey, ?_⟩
    rw [State.setCut_script, State.setScript_script, script, List.tail_drop]

/-- Keys typed in the coming turn end the wait with the first of them. -/
theorem step_typed {s : State} (hr : s.run = .running) (hw : WaitsForKey s) (hk : NoKey s) {k : Word} {later : List Word}
    (hs : s.script.head? = some ((k :: later).map .press)) :
    ∃ t, step s = .next t ∧ WaitEnded k later s t ∧ t.heldKey = none ∧ t.script = s.script.tail := by
  obtain ⟨noKeys, noHeldKey⟩ := hk
  obtain ⟨ts, script⟩ := List.head?_eq_some_iff.mp hs
  have turn := environmentTurn_cons script
  rw [applyTurn_press] at turn
  have key : NextKey k later (((s.setScript ts).setCut none).setKeys (s.keys ++ k :: later)) :=
    .inl (by rw [noKeys]; rfl)
  obtain ⟨t, ht, ended, heldKey⟩ := step_ends_wait hr turn hw key (.inr (by rintro n ⟨⟩))
  refine ⟨t, ht, ended, heldKey.trans noHeldKey, ?_⟩
  obtain ⟨w, hold⟩ := hw.unfinished
  obtain rfl := Host.Outcome.next.inj ((step_resumes hr turn hold).symm.trans ht)
  rw [(resumeHold_keyFrame w _).script, script]
  rfl

/-- Settles O25: one step by the cases of the key and the cut; then `run_waits` up to the turn that ends the wait. -/
theorem waitEndsWithTheKey : Obligations.WaitEndsWithTheKey := by
  intro s hr hw
  constructor
  case left =>
    intro s' turn
    have kept := (environmentTurn_frame turn).1.unitKept
    refine ⟨kept, step_waits hr turn hw, fun k rest hk =>
      ⟨step_ends_wait hr turn hw hk, step_in_cut_key hr turn, fun hs hc => ?_⟩⟩
    have taken := kept.keyTaken k rest
    refine ⟨_, step_in_cut_echo hr turn hs hk hc, rfl, taken.trace, taken.regs, taken.pc, taken.cond, taken.run.trans hr,
      taken.mem, rfl, rfl, fun ts t' turn' uncut => ?_⟩
    have taken' := (taken.left (some (.echo k)) ts).turn (environmentTurn_frame turn').1
    exact ⟨_, step_echo (taken.run.trans hr) turn' rfl uncut, taken'.in_ended hs, rfl⟩
  case right =>
    intro hk j quiet
    obtain ⟨w, run, kept, noKey, script⟩ := run_waits hr hw hk j quiet
    have head : w.script.head? = s.script[j]? := by rw [script, List.head?_drop]
    refine ⟨⟨w, run, kept, noKey, script⟩, fun k later typed => ?_, fun as turn abort => ?_⟩
    · obtain ⟨t, ht, ended, heldKey, rest⟩ :=
        step_typed (kept.run.trans hr) (kept.waitsForKey hw) noKey (head.trans typed)
      exact ⟨t, (run_succ_of_run run).trans ht, kept.waitEnded ended, heldKey,
        by rw [rest, script, List.tail_drop]⟩
    · exact (run_succ_of_run run).trans (step_aborted (kept.run.trans hr) (head.trans turn) abort)

end Sys2Proof.Machine
end

section
/-! The string routines PUTS and PUTSP (43_trap.md R119, R121, R126): what they write of a string that ends, and the spec's
unbounded loop against the model's counted one. -/

namespace Sys2Proof.Machine

theorem writeChars_append (ws ws' : List Word) (s : State) :
    writeChars (ws ++ ws') s = writeChars ws' (writeChars ws s) := by
  simp [writeChars_eq]

/-! ### A string in memory (R119) -/

theorem StringAt.of_mem_eq {s t : State} (hm : t.mem = s.mem) {p : Word} {ws : List Word} (h : StringAt s p ws) :
    StringAt t p ws := by
  induction ws generalizing p with
  | nil => rwa [StringAt, hm]
  | cons w ws ih =>
    obtain ⟨hp, hw, hz, rest⟩ := h
    exact ⟨hp, hm ▸ hw, hz, ih rest⟩

/-- No word of a string lies at KBSR, its end included. -/
theorem StringAt.ne_kbsr {s : State} {p : Word} {ws : List Word} (h : StringAt s p ws) {i : Nat} (hi : i ≤ ws.length) :
    p + BitVec.ofNat 16 i ≠ Config.kbsr := by
  induction ws generalizing p i with
  | nil =>
    obtain ⟨hp, -⟩ := h
    obtain rfl := Nat.le_zero.mp hi
    rwa [BitVec.add_zero]
  | cons w ws ih =>
    obtain ⟨hp, -, -, rest⟩ := h
    cases i with
    | zero => rwa [BitVec.add_zero]
    | succ i =>
      rw [add_ofNat_succ]
      exact ih rest (Nat.le_of_succ_le_succ hi)

/-- So a string ends within one lap of the address space. -/
theorem StringAt.length_lt {s : State} {p : Word} {ws : List Word} (h : StringAt s p ws) : ws.length < Config.memWords := by
  obtain ⟨d, hd, hq⟩ := distance_to p Config.kbsr
  by_contra long
  exact h.ne_kbsr (hd.le.trans (Nat.le_of_not_lt long)) hq

/-- The loop writes the codes of a string and ends; a Word takes at most three operations, the zero word one. -/
theorem writeString_stringAt (f : StringForm) {s : State} {p : Word} {ws : List Word} (h : StringAt s p ws) {n : Nat}
    (hn : 3 * ws.length < n) : writeString f n [] p s = (writeChars (ws.flatMap f.codes) s).setHold none := by
  induction ws generalizing s p n with
  | nil =>
    obtain ⟨hp, hz⟩ := h
    obtain ⟨n, rfl⟩ := Nat.exists_eq_add_of_le' hn
    have read := memRead_plain s hp
    rw [Nat.add_succ, writeString_zero _ _ _ _ (by rw [read]; exact hz), read]
    rfl
  | cons w ws ih =>
    obtain ⟨hp, rfl, hz, rest⟩ := h
    have read := memRead_plain s hp
    have two := (f.codes_length (s.mem.read p)).2
    rw [List.length_cons] at hn
    obtain ⟨m, rfl⟩ : ∃ m, n = (f.codes (s.mem.read p)).length + m + 1 :=
      ⟨n - ((f.codes (s.mem.read p)).length + 1), by omega⟩
    have word := writeString_word f m p s (by rw [read]; exact hz)
    rw [read] at word
    rw [word, ih (rest.of_mem_eq (writeChars_mem s _)) (by omega), List.flatMap_cons, writeChars_append]

/-! ### The routines of a string that ends (R119, R121) -/

/-- A string routine that is not cut is the loop from R0's address, with the operations that are enough for any end. -/
theorem exec_string_uncut (form : StringForm) {s : State} (hc : s.cut = none) : exec form.instr s =
    .next (writeString form (stringOps [] (trapEntry s)) [] (s.reg .r0) (trapEntry s)) := by
  have whole : exec form.instr s = .next (stringFrom form [] ((trapEntry s).reg .r0) (trapEntry s)) := by
    cases form
    case puts => exact exec_puts s
    case putsp => exact exec_putsp s
  rw [whole, trapEntry_reg s (by decide), stringFrom, State.allowed_none (by exact hc)]

/-- PUTS and PUTSP on a string in memory: its codes are written, R7 takes a + 1, nothing else changes. -/
theorem exec_string_stringAt (form : StringForm) {s : State} {ws : List Word} (h : StringAt s (s.reg .r0) ws)
    (hc : s.cut = none) : ∃ t, exec form.instr s = .next t ∧
      t.trace = s.trace ++ (ws.flatMap form.codes).map .writeChar ∧ t.reg .r7 = s.pc ∧ RegsKept [.r7] s t ∧ t.pc = s.pc ∧
      t.cond = s.cond ∧ MemKept [] s t ∧ t.keys = s.keys ∧ t.heldKey = s.heldKey ∧ Finished s t := by
  have enough : 3 * ws.length < stringOps [] (trapEntry s) := by
    have short := h.length_lt
    rw [Config.memWords] at short
    rw [stringOps, Config.memWords]
    omega
  have kept : RegsKept [.r7] s (writeChars (ws.flatMap form.codes) (trapEntry s)) :=
    (trapEntry_regsKept s).trans (writeChars_regsKept _ _)
  have exec_eq := exec_string_uncut form hc
  rw [writeString_stringAt form (h.of_mem_eq (trapEntry_mem s)) enough] at exec_eq
  refine ⟨_, exec_eq, ?_, ?_, kept, ?_, ?_, writeChars_memKept _ (trapEntry s), ?_, ?_, ?_, rfl, ?_⟩
  all_goals simp

/-- Settles O27: PUTS writes each Word as one code. -/
theorem putsWritesString : Obligations.PutsWritesString := by
  intro s ws h hc
  have one : ws.flatMap StringForm.puts.codes = ws := List.flatMap_singleton' ws
  exact one ▸ exec_string_stringAt .puts h hc

theorem lowByte_eq (w : Word) : lowByte w = BitVec.ofNat 16 (w.toNat % 256) := by
  apply BitVec.eq_of_toNat_eq
  simp [lowByte, zext]

theorem highByte_eq (w : Word) : highByte w = BitVec.ofNat 16 (w.toNat / 256) := by
  apply BitVec.eq_of_toNat_eq
  have := w.isLt
  simp [highByte, zext, Nat.shiftRight_eq_div_pow]
  omega

theorem highByte_eq_zero (w : Word) : highByte w = 0x0000#16 ↔ w.toNat / 256 = 0 := by
  have := w.isLt
  rw [highByte_eq, ← BitVec.toNat_inj, BitVec.toNat_ofNat, BitVec.toNat_ofNat]
  omega

/-- PUTSP's codes by arithmetic on the Word (R121, D22). -/
theorem codes_putsp (w : Word) : StringForm.putsp.codes w =
    if w.toNat / 256 = 0 then [BitVec.ofNat 16 (w.toNat % 256)]
    else [BitVec.ofNat 16 (w.toNat % 256), BitVec.ofNat 16 (w.toNat / 256)] := by
  simp only [StringForm.codes, highByte_eq_zero, ← lowByte_eq, ← highByte_eq]

/-- Settles O28: PUTSP writes each Word as `codes_putsp` says. -/
theorem putspWritesPackedString : Obligations.PutspWritesPackedString := by
  intro s ws h hc
  exact funext codes_putsp ▸ exec_string_stringAt .putsp h hc

/-! ### The unbounded loop (R126) -/

/-- Two ends of the counted loop are the same end. -/
theorem EndsWithin.unique {f : StringForm} {n m : Nat} {cs : List Word} {p : Word} {s : State}
    (h : EndsWithin f n cs p s) (g : EndsWithin f m cs p s) : writeString f n cs p s = writeString f m cs p s := by
  rw [← writeString_mono f (max n m) (Nat.le_max_left n m) _ _ _ h,
    writeString_mono f (max n m) (Nat.le_max_right n m) _ _ _ g]

/-- Where the counted loop ends, the unbounded one does. -/
theorem EndsWithin.run {f : StringForm} {n : Nat} {cs : List Word} {p : Word} {s : State} (h : EndsWithin f n cs p s) :
    ∃ t, StringRun f.codes p (writeChars cs s) t := by
  unfold EndsWithin at h
  induction n, cs, p, s using writeString_induct f with
  | stop cs p s => rw [writeString_stop] at h; cases h
  | code n c cs p s ih => exact ih h
  | zero n p s hz => exact ⟨_, .done p s hz⟩
  | word n p s hz ih =>
    rw [writeString_succ _ _ _ _ hz] at h
    exact (ih h).imp fun t rest => .more p s t hz rest

/-- A run of the unbounded loop is done within `stringOps` operations. -/
theorem StringRun.writeString_eq {f : StringForm} {p : Word} {s t : State} (h : StringRun f.codes p s t)
    (w : s.mem.wf = true) : writeString f (stringOps [] s) [] p s = t.setHold none := by
  obtain ⟨n, hn⟩ := h.ends
  have ends : EndsWithin f n [] p s := by rw [EndsWithin, hn]; rfl
  obtain enough | ⟨-, never⟩ := stringOps_enough f [] p s w
  · rw [enough.unique ends, hn]
  · exact absurd ends (never n)

/-- An endless loop is unfinished after any number of operations. -/
theorem writeString_endless {f : StringForm} {p : Word} {s : State} (h : ¬ ∃ t, StringRun f.codes p s t) (n : Nat) :
    ∃ cs q, (writeString f n [] p s).hold = some (.string f cs q) :=
  (writeString_hold f n [] p s).resolve_left fun ends => h (EndsWithin.run ends)

section
variable {f : StringForm} {p : Word} {s : State} (endless : ¬ ∃ t, StringRun f.codes p s t) (hr : s.run = .running)
  (hc : s.cut = none) (hs : s.script = [])
include endless hr hc hs

/-- A step of an unfinished string, the environment doing nothing, is more operations of the same loop. -/
theorem step_endless (n : Nat) :
    ∃ m, 2 ≤ m ∧ step (writeString f n [] p s) = .next (writeString f (n + m) [] p s) := by
  have frame := writeString_busFrame f n [] p s
  obtain ⟨cs, q, hold⟩ := writeString_endless endless n
  have cut := frame.cut.trans hc
  have turn := environmentTurn_nil (frame.script.trans hs)
  rw [State.setCut_none cut] at turn
  refine ⟨stringOps cs (writeString f n [] p s), ?_, ?_⟩
  · rw [stringOps, Config.memWords]
    omega
  · rw [step_resumes (frame.run.trans hr) turn hold, resumeHold, stringFrom, State.allowed_none cut,
      writeString_add f n _ _ _ _ hold]

theorem run_endless (n k : Nat) :
    ∃ m, n + 2 * k ≤ m ∧ Host.Core.run core k (writeString f n [] p s) = .next (writeString f m [] p s) := by
  induction k with
  | zero => exact ⟨n, le_rfl, rfl⟩
  | succ k ih =>
    obtain ⟨m, hm, run⟩ := ih
    obtain ⟨d, hd, next⟩ := step_endless endless hr hc hs m
    exact ⟨m + d, by omega, (run_succ_of_run run).trans next⟩

end

/-- Settles O29: the counted loop reaches every end (`StringRun.writeString_eq`), and an endless loop is cut after ever more
operations, at least every second of which writes. -/
theorem stringRoutinesAreTheLoop : Obligations.StringRoutinesAreTheLoop := by
  intro form s w hc
  have exec_eq := exec_string_uncut form hc
  constructor
  case left =>
    intro t run
    rw [exec_eq, run.writeString_eq (by exact w)]
  case right =>
    intro endless
    refine ⟨_, exec_eq, ?unfinished, fun hr hs k => ?further⟩
    case unfinished =>
      obtain ⟨cs, q, hold⟩ := writeString_endless endless (stringOps [] (trapEntry s))
      rw [hold]
      exact Option.some_ne_none _
    case further =>
      obtain ⟨m, hm, run⟩ := run_endless endless (by exact hr) (by exact hc) (by exact hs) (stringOps [] (trapEntry s)) k
      obtain ⟨cs, q, hold⟩ := writeString_endless endless m
      obtain ⟨t, part, codes⟩ := writeString_part form m [] (s.reg .r0) (trapEntry s) hold
      obtain ⟨ev, trace, out⟩ :=
        writeString_written form m [] (s.reg .r0) (trapEntry s) (by rw [hold]; exact Option.some_ne_none _)
      refine ⟨_, cs, q, t, ev, run, hold, part, hold ▸ codes, trace, ?_⟩
      rw [if_pos rfl] at out
      rw [stringOps, Config.memWords] at hm
      omega

end Sys2Proof.Machine
end

section
/-! The reserved opcodes (44_reserved.md R135, R136; 60_exceptions.md R141): the reported Word by arithmetic, and an event
recorded over an otherwise unchanged state. -/

namespace Sys2Proof.Machine

/-- A Word of format NONE by arithmetic: twelve zero bits under the opcode, and the ignored bits fill them. -/
theorem opcode_append_eq (op : BitVec 4) (bits : BitVec 12) :
    op ++ bits = BitVec.ofNat 16 (op.toNat * 2 ^ 12 + bits.toNat) := by
  apply BitVec.eq_of_toNat_eq
  have value : (op ++ bits).toNat = op.toNat * 2 ^ 12 + bits.toNat := by
    rw [BitVec.toNat_append, ← Nat.shiftLeft_add_eq_or_of_lt bits.isLt, Nat.shiftLeft_eq]
  have fits : op.toNat * 2 ^ 12 + bits.toNat < 2 ^ 16 := value ▸ (op ++ bits).isLt
  rw [value, BitVec.toNat_ofNat, Nat.mod_eq_of_lt fits]

/-- Recording an event changes the record alone. -/
theorem emit_kept (s : State) (e : Event) :
    RegsKept [] s (s.emit e) ∧ (s.emit e).pc = s.pc ∧ (s.emit e).cond = s.cond ∧ MemKept [] s (s.emit e) ∧
    (s.emit e).keys = s.keys ∧ (s.emit e).heldKey = s.heldKey ∧ ControlKept s (s.emit e) :=
  ⟨fun q _ => s.emit_reg e q, s.emit_pc e, s.emit_cond e, fun a _ => congrArg (Memory.read · a) (s.emit_mem e),
    s.emit_keys e, s.emit_heldKey e, s.emit_run e, s.emit_hold e, s.emit_script e, s.emit_cut e⟩

/-- Settles O33: either opcode records its Word, which is `opcode_append_eq`'s, and `emit_kept` is the rest. -/
theorem reservedOpcodesOnlyReport : Obligations.ReservedOpcodesOnlyReport := by
  intro bits s
  constructor
  case left =>
    rw [exec_rti, opcode_append_eq]
    exact ⟨_, rfl, s.emit_trace _, emit_kept s _⟩
  case right =>
    rw [exec_res, opcode_append_eq]
    exact ⟨_, rfl, s.emit_trace _, emit_kept s _⟩

end Sys2Proof.Machine
end

section
/-! What a TRAP saves, and who reaches the console (60_exceptions.md R146 to R163): the environment's turn, the abort, and the
console accesses of the instructions that are no trap. -/

namespace Sys2Proof.Machine

/-! ### What a TRAP saves (R148, R150) -/

theorem writtenRegs_of_isTrap {i : Instr} (h : isTrap i = true) : writtenRegs i ⊆ [.r7, .r0] := by
  cases i
  case trap v => rw [writtenRegs]; split <;> simp
  case getc | in_ => exact List.Subset.refl _
  case out | puts | putsp | halt => simp [writtenRegs]
  all_goals cases h

/-- Trap entry overwrites R7, so what R7 held before is gone (R148). -/
theorem trapEntry_setReg_r7 (s : State) (old : Word) : trapEntry (s.setReg .r7 old) = trapEntry s := rfl

/-- Settles O32: the frame of the trap shapes, and trap entry, through which alone a trap could see the old R7. -/
theorem trapSavesOnlyReturnAddress : Obligations.TrapSavesOnlyReturnAddress := by
  intro i s hi
  constructor
  case left =>
    intro t h
    have effect := exec_effect h
    obtain ⟨notStore, notTransfer⟩ := isTrap_excludes hi
    have pc : t.pc = s.pc := effect.pc_eq notTransfer
    obtain ⟨linked, -⟩ := effect.trap hi
    obtain ⟨mem, -⟩ := effect.memOnlyByPoll notStore
    exact ⟨linked.trans pc, pc, fun q hq => effect.regsKept q fun hw => hq (writtenRegs_of_isTrap hi hw), mem,
      exec_cond_kept h (isTrap_tables hi).1⟩
  case right =>
    intro old
    obtain ⟨v, same⟩ := exec_eq_trap hi
    rw [same, same, exec_trap, exec_trap, trapEntry_setReg_r7]

/-! ### The console of an instruction that is no trap (R9, R146, R159) -/

/-- The console was reached by polls and diagnostics only, and pending keys were taken by a poll at most. -/
def OnlyPollsAndReports (s t : State) : Prop :=
  ∃ ev, t.trace = s.trace ++ ev ∧
    (∀ e, e ∈ ev → (∃ k, e = .pollKey k) ∨ ∃ a w, e = .invalidOpcode a w) ∧
    ((∀ k, Event.pollKey k ∉ ev) → t.keys = s.keys)

theorem onlyPollsAndReports_of_eq {s t : State} (trace : t.trace = s.trace) (keys : t.keys = s.keys) :
    OnlyPollsAndReports s t :=
  ⟨[], by rw [trace, List.append_nil], fun _ he => absurd he List.not_mem_nil, fun _ => keys⟩

theorem OnlyPollsAndReports.trans {s t u : State} (h : OnlyPollsAndReports s t) (g : OnlyPollsAndReports t u) :
    OnlyPollsAndReports s u := by
  obtain ⟨ev, trace, kinds, keys⟩ := h
  obtain ⟨ev', trace', kinds', keys'⟩ := g
  refine ⟨ev ++ ev', by rw [trace', trace, List.append_assoc], fun e he => ?_, fun quiet => ?_⟩
  · exact (List.mem_append.mp he).elim (kinds e) (kinds' e)
  · rw [keys' fun k hk => quiet k (List.mem_append_right _ hk), keys fun k hk => quiet k (List.mem_append_left _ hk)]

/-- A bus read polls, or it leaves the console alone (R38, R40). -/
theorem memRead_onlyPollsAndReports (a : Word) (s : State) : OnlyPollsAndReports s (memRead a s).2 := by
  have polled (answer : Option Word) (t : State) (trace : t.trace = s.trace ++ [.pollKey answer]) :
      OnlyPollsAndReports s t :=
    ⟨_, trace, fun e he => .inl ⟨answer, List.mem_singleton.mp he⟩,
      fun quiet => absurd (List.mem_singleton_self _) (quiet answer)⟩
  obtain ⟨-, read⟩ | ⟨-, k, rest, -, read⟩ | ⟨-, -, read⟩ := memRead_cases s a <;> rw [read]
  · exact onlyPollsAndReports_of_eq rfl rfl
  · exact polled (some k) _ rfl
  · exact polled none _ rfl

theorem loadFrom_onlyPollsAndReports (dr : Reg) (a : Word) (s : State) : OnlyPollsAndReports s (loadFrom dr a s) :=
  (memRead_onlyPollsAndReports a s).trans (onlyPollsAndReports_of_eq rfl rfl)

theorem report_onlyPollsAndReports (s : State) (a w : Word) : OnlyPollsAndReports s (s.emit (.invalidOpcode a w)) :=
  ⟨_, s.emit_trace _, fun _ he => .inr ⟨a, w, List.mem_singleton.mp he⟩, fun _ => s.emit_keys _⟩

/-- Settles O37: the loads and STI by their bus reads, the reserved opcodes by their report; the rest pass nothing. -/
theorem writeCharAndReadKeyOnlyByTrap : Obligations.WriteCharAndReadKeyOnlyByTrap := by
  intro i s t h hi
  cases i <;> obtain rfl := Host.Outcome.next.inj h
  case br => split <;> exact onlyPollsAndReports_of_eq rfl rfl
  case ld | ldr => exact loadFrom_onlyPollsAndReports ..
  case ldi => exact (memRead_onlyPollsAndReports ..).trans (loadFrom_onlyPollsAndReports ..)
  case sti => exact (memRead_onlyPollsAndReports ..).trans (onlyPollsAndReports_of_eq rfl rfl)
  case rti | res => exact report_onlyPollsAndReports ..
  case add | addImm | and | andImm | not | lea | st | str | jsr | jsrr | jmp | ret =>
    exact onlyPollsAndReports_of_eq rfl rfl
  case trap | getc | out | puts | in_ | putsp | halt => cases hi

/-! ### The environment's turn (R146, R172) -/

/-- Only the action that asks for a cut changes it (log 8). -/
theorem applyAction_cut {a : EnvAction} {s t : State} (h : applyAction a s = some t) (ha : ∀ n, a ≠ .cut n) :
    t.cut = s.cut := by
  cases a <;> cases h
  case cut n => exact absurd rfl (ha n)
  all_goals rfl

theorem applyTurn_cut {as : List EnvAction} {s t : State} (h : applyTurn as s = some t)
    (uncut : ∀ n, EnvAction.cut n ∉ as) : t.cut = s.cut := by
  induction as generalizing s with
  | nil => cases h; rfl
  | cons a as ih =>
    rw [applyTurn] at h
    cases ha : applyAction a s with
    | none => rw [ha] at h; cases h
    | some s' =>
      rw [ha] at h
      have first : s'.cut = s.cut := applyAction_cut ha fun n e => uncut n (e ▸ List.mem_cons_self)
      exact (ih h fun n hn => uncut n (List.mem_cons_of_mem a hn)).trans first

/-- A turn that asks for no cut leaves the coming step uncut: an earlier cut does not last (log 8). -/
theorem environmentTurn_uncut {s t : State} (h : environmentTurn s = some t)
    (uncut : ∀ as n, s.script.head? = some as → EnvAction.cut n ∉ as) : t.cut = none := by
  cases hs : s.script with
  | nil => rw [environmentTurn_nil hs] at h; cases h; rfl
  | cons as ts =>
    rw [environmentTurn_cons hs] at h
    exact applyTurn_cut h fun n => uncut as n (by rw [hs]; rfl)

/-- Settles O45. -/
theorem environmentOnlyTouchesTheConsole : Obligations.EnvironmentOnlyTouchesTheConsole := by
  refine ⟨fun s s' turn => ?frame, fun s ks ts script => ?press, fun s n ts script => ?cut,
    fun s s' => environmentTurn_uncut⟩
  case frame =>
    obtain ⟨frame, script⟩ := environmentTurn_frame turn
    exact ⟨frame.regs, frame.pc, frame.cond, frame.run, frame.mem, frame.hold, frame.trace, script, frame.keys⟩
  case press => exact ⟨_, (environmentTurn_cons script).trans (applyTurn_press ks _), rfl, rfl⟩
  case cut => exact ⟨_, environmentTurn_cons script, rfl⟩

/-! ### The abort (R163) -/

/-- Settles O48: an instruction always answers a next state, so a step without one is the environment's. -/
theorem abortOnlyByEnvironment : Obligations.AbortOnlyByEnvironment := by
  constructor
  case left =>
    refine fun s => ⟨fun aborted => ?_, fun ⟨running, as, head, abort⟩ => step_aborted running head abort⟩
    obtain ⟨-, answers⟩ := stepNeverRefuses
    obtain ⟨t, next⟩ | ⟨-, ended⟩ := answers s
    · rw [aborted] at next; cases next
    · exact ended
  case right =>
    intro i s
    obtain ⟨t, next⟩ := exec_answers i s
    rw [next]
    exact nofun

end Sys2Proof.Machine
end

section
/-! A string or prompt that the environment cuts (60_exceptions.md R163; 43_trap.md R126): what is out at the cut, and the
rest that the next step writes. -/

namespace Sys2Proof.Machine

/-! ### The string loop cut short (R119, R121) -/

/-- The loop cut inside a string: `out` is written, and `left` with the Words of `rest` is what is still to write. Each
operation has written a code of `out` or read a Word of `done`. -/
theorem writeString_cut (f : StringForm) {n : Nat} {cs : List Word} {p : Word} {s : State} {ws : List Word}
    (h : StringAt s p ws) (hn : n ≤ cs.length + (ws.length + (ws.flatMap f.codes).length)) :
    ∃ out left q done rest, writeString f n cs p s = (writeChars out s).setHold (some (.string f left q)) ∧
      out ++ left = cs ++ done.flatMap f.codes ∧ ws = done ++ rest ∧ StringAt s q rest ∧
      n = out.length + done.length := by
  induction n, cs, p, s using writeString_induct f generalizing ws with
  | stop cs p s => exact ⟨[], cs, p, [], ws, writeString_stop .., by simp, rfl, h, rfl⟩
  | code n c cs p s ih =>
    rw [List.length_cons] at hn
    obtain ⟨out, left, q, done, rest, loop, codes, words, string, count⟩ := ih (h.of_mem_eq (by rfl)) (by omega)
    exact ⟨c :: out, left, q, done, rest, loop, congrArg (c :: ·) codes, words, string.of_mem_eq (by rfl),
      by rw [List.length_cons]; omega⟩
  | zero n p s hz =>
    cases ws with
    | nil => exact absurd hn (Nat.not_succ_le_zero n)
    | cons w ws =>
      obtain ⟨hp, rfl, nonzero, -⟩ := h
      rw [memRead_plain s hp] at hz
      exact absurd hz nonzero
  | word n p s hz ih =>
    cases ws with
    | nil => exact absurd hn (Nat.not_succ_le_zero n)
    | cons w ws =>
      obtain ⟨hp, rfl, -, tail⟩ := h
      rw [writeString_succ _ _ _ _ hz]
      simp only [memRead_plain s hp] at ih ⊢
      rw [List.flatMap_cons, List.length_append, List.length_cons, List.length_nil] at hn
      obtain ⟨out, left, q, done, rest, loop, codes, words, string, count⟩ := ih tail (by omega)
      exact ⟨out, left, q, s.mem.read p :: done, rest, loop, by rw [codes, List.flatMap_cons]; rfl,
        congrArg (s.mem.read p :: ·) words, string, by rw [List.length_cons]; omega⟩

theorem written_map_writeChar (ws : List Word) : written (ws.map .writeChar) = ws := by
  induction ws with
  | nil => rfl
  | cons w ws ih => exact congrArg (w :: ·) ih

/-- At least every second operation before a cut has written a code. -/
theorem le_of_writeString_cut {f : StringForm} {n : Nat} {p q : Word} {s : State} {out left : List Word}
    (h : writeString f n [] p s = (writeChars out s).setHold (some (.string f left q))) : n ≤ 2 * out.length + 1 := by
  obtain ⟨ev, trace, count⟩ := writeString_written f n [] p s (by rw [h]; exact Option.some_ne_none _)
  rw [h, State.setHold_trace, writeChars_trace, List.append_right_inj] at trace
  rwa [← trace, written_map_writeChar, if_pos rfl] at count

/-! ### A trap cut after some characters (R115, R163) -/

/-- The state of a trap that has written `out` and has `w` still to do. -/
def trapCut (out : List Word) (w : TrapHold) (s : State) : State := (writeChars out (trapEntry s)).setHold (some w)

@[simp] theorem trapCut_hold (out : List Word) (w : TrapHold) (s : State) : (trapCut out w s).hold = some w := rfl

@[simp] theorem trapCut_run (out : List Word) (w : TrapHold) (s : State) : (trapCut out w s).run = s.run := by
  simp [trapCut]

@[simp] theorem trapCut_cond (out : List Word) (w : TrapHold) (s : State) : (trapCut out w s).cond = s.cond := by
  simp [trapCut]

@[simp] theorem trapCut_mem (out : List Word) (w : TrapHold) (s : State) : (trapCut out w s).mem = s.mem := by
  simp [trapCut]

@[simp] theorem trapCut_trace (out : List Word) (w : TrapHold) (s : State) :
    (trapCut out w s).trace = s.trace ++ out.map .writeChar := by simp [trapCut]

theorem trapCut_regsKept (out : List Word) (w : TrapHold) (s : State) : RegsKept [.r7] s (trapCut out w s) :=
  (trapEntry_regsKept s).trans (writeChars_regsKept out _)

/-- An abort in the turn right after a step ends the run (R163). -/
theorem step_abort_next {t : State} (hr : t.run = .running) : step (t.setScript [[.abort]]) = .fault .aborted :=
  step_aborted hr rfl List.mem_cons_self

/-- What a cut trap has changed besides the record and `hold`, and that an abort ends the run there. -/
theorem trapCut_kept (out : List Word) (w : TrapHold) {s : State} (hr : s.run = .running) :
    (trapCut out w s).reg .r7 = s.pc ∧ RegsKept [.r7] s (trapCut out w s) ∧ (trapCut out w s).pc = s.pc ∧
    (trapCut out w s).cond = s.cond ∧ MemKept [] s (trapCut out w s) ∧ (trapCut out w s).keys = s.keys ∧
    step ((trapCut out w s).setScript [[.abort]]) = .fault .aborted := by
  refine ⟨?r7, trapCut_regsKept out w s, ?pc, trapCut_cond out w s, fun a _ => by rw [trapCut_mem], ?keys,
    step_abort_next ((trapCut_run out w s).trans hr)⟩
  all_goals simp [trapCut]

/-! ### The rest of a string -/

/-- The rest of a string whose codes `left` and Words `rest` are still to write, in a step that is not cut. -/
theorem step_rest_of_string {f : StringForm} {left rest : List Word} {q : Word} {t t' : State} (hr : t.run = .running)
    (hold : t.hold = some (.string f left q)) (string : StringAt t q rest) (turn : environmentTurn t = some t')
    (hc : t'.cut = none) :
    step t = .next ((writeChars (left ++ rest.flatMap f.codes) t').setHold none) := by
  have string' : StringAt (writeChars left t') q rest :=
    string.of_mem_eq ((writeChars_mem t' left).trans (environmentTurn_frame turn).1.mem)
  have enough : 3 * rest.length < 3 * (Config.memWords * (t'.keys.length + 2)) := by
    have short := string.length_lt
    rw [Config.memWords] at short ⊢
    omega
  rw [step_resumes hr turn hold, resumeHold, stringFrom, State.allowed_none hc, stringOps, writeString_codes,
    writeString_stringAt f string' enough, writeChars_append]

/-- A string routine is the loop from R0's address, with the operations it is allowed. -/
theorem exec_string (form : StringForm) (s : State) : exec form.instr s =
    .next (writeString form (s.allowed (stringOps [] (trapEntry s))) [] (s.reg .r0) (trapEntry s)) := by
  rw [← trapEntry_reg s (q := .r0) (by decide)]
  cases form
  case puts => exact exec_puts s
  case putsp => exact exec_putsp s

/-- PUTS and PUTSP cut inside a string: the first `j` of its codes are out, every other operation of PUTS having written one
and at least every other of PUTSP; and a step that is not cut writes the rest. -/
theorem exec_string_cut (form : StringForm) {s : State} {n : Nat} (hc : s.cut = some n) (hr : s.run = .running)
    {ws : List Word} (h : StringAt s (s.reg .r0) ws) (hn : n ≤ ws.length + (ws.flatMap form.codes).length) :
    ∃ out j w, out = (ws.flatMap form.codes).take j ∧ exec form.instr s = .next (trapCut out w s) ∧
      n / 2 ≤ j ∧ j ≤ n ∧ (form = .puts → j = n / 2) ∧
      ∀ ts t', environmentTurn ((trapCut out w s).setScript ts) = some t' → t'.cut = none →
        ∃ u, step ((trapCut out w s).setScript ts) = .next u ∧ u.hold = none ∧
          u.trace = s.trace ++ (ws.flatMap form.codes).map .writeChar := by
  obtain ⟨out, left, q, done, rest, loop, codes, words, string, count⟩ :=
    writeString_cut form (cs := []) (h.of_mem_eq (trapEntry_mem s)) (by simpa using hn)
  have half := le_of_writeString_cut loop
  have all : out ++ (left ++ rest.flatMap form.codes) = ws.flatMap form.codes := by
    rw [← List.append_assoc, codes, words, List.nil_append, List.flatMap_append]
  refine ⟨out, out.length, .string form left q, by rw [← all, List.take_left], ?exec, by omega, by omega, ?puts, ?rest⟩
  case exec =>
    rw [exec_string, State.allowed_some hc, loop]
    rfl
  case puts =>
    rintro rfl
    have one : done.flatMap StringForm.puts.codes = done := List.flatMap_singleton' done
    have balance := congrArg List.length codes
    rw [one, List.nil_append, List.length_append] at balance
    omega
  case rest =>
    intro ts t' turn uncut
    have string' : StringAt ((trapCut out (.string form left q) s).setScript ts) q rest := string.of_mem_eq (by simp)
    refine ⟨_, step_rest_of_string (by simpa using hr) rfl string' turn uncut, rfl, ?_⟩
    rw [State.setHold_trace, writeChars_trace, (environmentTurn_frame turn).1.trace, State.setScript_trace, trapCut_trace,
      List.append_assoc, ← List.map_append, all]

/-! ### IN cut in its prompt or before its echo (R120, R163) -/

/-- IN cut before its key read has written the beginning of its prompt. -/
theorem inFrom_cut {n : Nat} {cs : List Word} (hn : n ≤ cs.length) (s : State) :
    inFrom n cs s = (writeChars (cs.take n) s).setHold (some (.in_ (cs.drop n))) := by
  induction n generalizing cs s with
  | zero => exact inFrom_stop cs s
  | succ n ih =>
    cases cs with
    | nil => exact absurd hn (Nat.not_succ_le_zero n)
    | cons c cs => exact ih (Nat.le_of_succ_le_succ hn) (writeChar c s)

theorem exec_in_cut_prompt {s : State} {n : Nat} (hc : s.cut = some n) (hn : n ≤ Config.inPrompt.length) :
    exec .in_ s = .next (trapCut (Config.inPrompt.take n) (.in_ (Config.inPrompt.drop n)) s) := by
  rw [exec_in_, inRoutine, inRoutineWith, State.allowed_some (by exact hc), inFrom_cut hn]
  rfl

theorem exec_in_cut_echo {s : State} (hc : s.cut = some (Config.inPrompt.length + 1)) {k : Word} {rest : List Word}
    (hk : NextKey k rest s) : exec .in_ s =
      .next ((((writeChars Config.inPrompt (trapEntry s)).setKeys rest).emit (.readKey k)).setHold (some (.echo k))) := by
  have prompted : NextKey k rest (writeChars Config.inPrompt (trapEntry s)) := by simpa [NextKey] using hk
  rw [exec_in_, inRoutine, inRoutineWith, State.allowed_some (by exact hc), inFrom_prompt, inRead_next 0 prompted, inEcho]

/-- IN that has codes of its prompt still to write does so in a step that is not cut, and then reads its key. -/
theorem step_rest_of_prompt {cs : List Word} {t t' : State} (hr : t.run = .running) (hold : t.hold = some (.in_ cs))
    (turn : environmentTurn t = some t') (hc : t'.cut = none) :
    step t = .next (inRead 1 (writeChars cs t')) := by
  rw [step_resumes hr turn hold]
  exact congrArg Host.Outcome.next (inRoutineWith_whole hc cs)

/-- What the step after a prompt cut at `n` does: IN takes its key, or waits where there is none (R120, R125). -/
theorem step_after_cut_prompt {s t t' : State} {n : Nat} (hr : t.run = .running)
    (hold : t.hold = some (.in_ (Config.inPrompt.drop n))) (cond : t.cond = s.cond) (regs : RegsKept [.r7] s t)
    (out : t.trace = s.trace ++ (Config.inPrompt.take n).map .writeChar) (turn : environmentTurn t = some t')
    (hc : t'.cut = none) :
    (∀ k rest, NextKey k rest t' → ∃ u, step t = .next u ∧ u.hold = none ∧ u.reg .r0 = k ∧ FlagIs u.cond k ∧
      u.keys = rest ∧ u.trace = s.trace ++ Config.inPrompt.map .writeChar ++ [.readKey k, .writeChar k]) ∧
    (NoKey t' → ∃ u, step t = .next u ∧ u.hold = some (.in_ []) ∧ u.cond = s.cond ∧ RegsKept [.r7] s u ∧
      u.trace = s.trace ++ Config.inPrompt.map .writeChar) := by
  have next := step_rest_of_prompt hr hold turn hc
  have frame := (environmentTurn_frame turn).1
  have trace : (writeChars (Config.inPrompt.drop n) t').trace = s.trace ++ Config.inPrompt.map .writeChar := by
    rw [writeChars_trace, frame.trace, out, List.append_assoc, ← List.map_append, List.take_append_drop]
  constructor
  case left =>
    intro k rest hk
    have prompted : NextKey k rest (writeChars (Config.inPrompt.drop n) t') := by simpa [NextKey] using hk
    rw [inRead_next 1 prompted] at next
    refine ⟨_, next, rfl, finishIn_r0 .., finishIn_cond .., rfl, ?_⟩
    rw [inEcho, finishIn_trace, State.emit_trace, State.setKeys_trace, trace, List.append_assoc]
    rfl
  case right =>
    intro hk
    have prompted : NoKey (writeChars (Config.inPrompt.drop n) t') := by simpa [NoKey] using hk
    rw [inRead_noKey 1 prompted] at next
    have regs' : RegsKept [.r7] s (writeChars (Config.inPrompt.drop n) t') :=
      (regs.trans frame.regsKept).trans (writeChars_regsKept _ t')
    refine ⟨_, next, rfl, ?_, regs', trace⟩
    rw [State.setHold_cond, writeChars_cond, frame.cond, cond]

/-- Settles O30: each routine by what it has written at the cut, then by what the step after the cut writes. -/
theorem cutStringShowsItsBeginning : Obligations.CutStringShowsItsBeginning := by
  intro s n hc hr
  refine ⟨fun ws h hn => ?puts, fun ws codes h hcodes hn => ?putsp, fun hn => ?prompt, fun hn k rest hk => ?echo⟩
  case puts =>
    have one : ws.flatMap StringForm.puts.codes = ws := List.flatMap_singleton' ws
    obtain ⟨_, _, w, rfl, exec_eq, -, -, half, resumed⟩ := exec_string_cut .puts hc hr h (by rw [one]; omega)
    obtain rfl := half rfl
    rw [one] at exec_eq resumed
    obtain ⟨r7, regs, pc, cond, mem, keys, abort⟩ := trapCut_kept (ws.take (n / 2)) w hr
    exact ⟨_, exec_eq, trapCut_trace .., Option.some_ne_none w, r7, regs, pc, cond, mem, keys, abort, resumed⟩
  case putsp =>
    subst hcodes
    obtain ⟨_, j, w, rfl, exec_eq, half, most, -, resumed⟩ := exec_string_cut .putsp hc hr h hn
    obtain ⟨r7, regs, pc, cond, mem, keys, abort⟩ := trapCut_kept ((ws.flatMap StringForm.putsp.codes).take j) w hr
    exact ⟨_, j, exec_eq, half, most, trapCut_trace .., Option.some_ne_none w, r7, regs, pc, cond, mem, keys, abort,
      resumed⟩
  case prompt =>
    obtain ⟨r7, regs, pc, cond, mem, keys, abort⟩ :=
      trapCut_kept (Config.inPrompt.take n) (.in_ (Config.inPrompt.drop n)) hr
    have out := trapCut_trace (Config.inPrompt.take n) (.in_ (Config.inPrompt.drop n)) s
    exact ⟨_, exec_in_cut_prompt hc hn, out, rfl, r7, regs, pc, cond, mem, keys, abort,
      fun _ _ => step_after_cut_prompt (by simpa using hr) rfl cond regs out⟩
  case echo =>
    subst hn
    have kept : RegsKept [.r7] s (writeChars Config.inPrompt (trapEntry s)) :=
      (trapEntry_regsKept s).trans (writeChars_regsKept _ _)
    refine ⟨_, exec_in_cut_echo hc hk, rfl, ?trace, ?r7, kept, ?pc, ?cond,
      writeChars_memKept Config.inPrompt (trapEntry s), rfl, step_abort_next ?run, fun ts t' turn uncut => ?rest⟩
    case rest =>
      refine ⟨_, step_echo (by simp [hr]) turn rfl (by simp [uncut]), rfl, finishIn_r0 .., finishIn_cond .., ?_⟩
      rw [finishIn_trace, (environmentTurn_frame turn).1.trace]
      rfl
    all_goals simp [hr]

end Sys2Proof.Machine
end

section
/-! Image files (70_reset_and_hazards.md R170): the bytes of a Word put together again, chunk by chunk. -/

namespace Sys2Proof.Machine

theorem bigEndianWords_cons_cons (hi lo : Byte) (bytes : List Byte) :
    bigEndianWords (hi :: lo :: bytes) = (hi ++ lo) :: bigEndianWords bytes := rfl

/-- An odd trailing byte makes no Word. -/
theorem bigEndianWords_of_length_le_one {bytes : List Byte} (short : bytes.length ≤ 1) : bigEndianWords bytes = [] := by
  match bytes, short with
  | [], _ => rfl
  | [_], _ => rfl

theorem parseImage_of_bigEndianWords {bytes : List Byte} {origin : Word} {words : List Word}
    (chunks : bigEndianWords bytes = origin :: words) : parseImage bytes = some (origin, words) := by
  rw [parseImage, chunks]

/-- Quotient and remainder by 256 are the high and the low byte of a Word. -/
theorem ofNat_div_append_ofNat_mod (w : Word) :
    BitVec.ofNat 8 (w.toNat / 256) ++ BitVec.ofNat 8 (w.toNat % 256) = w := by
  apply BitVec.eq_of_toNat_eq
  have high : w.toNat / 256 < 2 ^ 8 := by have := w.isLt; omega
  have low : w.toNat % 256 < 2 ^ 8 := Nat.mod_lt _ (by decide)
  rw [BitVec.toNat_append, BitVec.toNat_ofNat, BitVec.toNat_ofNat, Nat.mod_eq_of_lt high, Nat.mod_eq_of_lt low,
    ← Nat.shiftLeft_add_eq_or_of_lt low, Nat.shiftLeft_eq]
  exact Nat.div_add_mod' w.toNat 256

/-- Words written high byte first are the chunks that a file begins with, whatever follows them. -/
theorem bigEndianWords_flatMap_append (words : List Word) (rest : List Byte) :
    bigEndianWords ((words.flatMap fun w =>
      [BitVec.ofNat 8 (w.toNat / 256), BitVec.ofNat 8 (w.toNat % 256)]) ++ rest) = words ++ bigEndianWords rest := by
  induction words with
  | nil => rfl
  | cons w words ih =>
    simp only [List.flatMap_cons, List.cons_append, List.nil_append, bigEndianWords_cons_cons,
      ofNat_div_append_ofNat_mod, ih]

/-- Settles O60: the chunks of the file are the origin and its words, and the trailing byte adds none. -/
theorem imageFileIsBigEndian : Obligations.ImageFileIsBigEndian := by
  intro origin words trailing short
  apply parseImage_of_bigEndianWords
  rw [bigEndianWords_flatMap_append, bigEndianWords_of_length_le_one short, List.append_nil]

end Sys2Proof.Machine
end
